-- ==== Sys2Proof/Config.lean ====
section
/-! DEFINITION. The parameters of R7, each under a name of its own: those the source itself fixes (`MEM_SIZE`, the
register count and widths, the generator's width and shifts), the widths of `SP` and `PC` that the spec decides (D8),
and the shape of the layout that the source names without values. The decided values of the layout, the switches and
the seed (R7; D1 to D4, D9, D10, D16) stand in Machine/Parameters.lean. -/

namespace Sys2Proof

/-- `NUM_V`, the number of general registers (R7, R20). -/
abbrev Config.numV : Nat := 16

/-- The width of a general register (R7, R20). -/
abbrev Config.widthV : Nat := 8

/-- The width of `I` (R7, R24). -/
abbrev Config.widthI : Nat := 16

/-- The width of `PC`, the spec's decision (R7, R26, D8). Log entry 16. -/
abbrev Config.widthPc : Nat := 16

/-- The width of `SP`, the spec's decision (R7, R25, D8). Log entry 16. -/
abbrev Config.widthSp : Nat := 16

/-- The width of `rng_seed` (R7, R29). -/
abbrev Config.widthSeed : Nat := 64

/-- `MEM_SIZE`, 4096 bytes (R7, R28). -/
def Config.memSize : Nat := 4096

/-- The first left shift of the generator (R7, R152). -/
def Config.rngShiftA : Nat := 13

/-- The right shift of the generator (R7, R152). -/
def Config.rngShiftB : Nat := 7

/-- The second left shift of the generator (R7, R152). -/
def Config.rngShiftC : Nat := 17

/-- The layout parameters of R7. `stackEnd` is one past the stack's highest byte: the empty-stack `SP`. -/
structure Layout where
  programStart : Nat
  stackStart   : Nat
  stackEnd     : Nat
  fbStart      : Nat
  screenW      : Nat
  screenH      : Nat
  bytesPerRow  : Nat
  deriving DecidableEq, Repr

/-- `FB_SIZE` (R7). -/
def Layout.fbSize (l : Layout) : Nat := l.screenH * l.bytesPerRow

/-- The four regions of R50. -/
inductive Region where
  | reserved
  | program
  | stack
  | framebuffer
  deriving DecidableEq, Repr

end Sys2Proof
end

