-- ==== Sys2Proof/Word.lean ====
section
/-! DEFINITION. The types of the core's data (R7, R20, R24, R29, R81): a width that R7 lists is the constant of
Config.lean, the widths of a byte, a word and its fields are the encoding's own. Field extraction, byte order and every
other computation on them stand in Decode.lean and under Machine/. -/

namespace Sys2Proof

/-- A memory byte, the field `nn`, and what a register holds as an operand: 8 bits (R20, R50, R81). -/
abbrev Byte := BitVec 8

/-- A 16-bit quantity in memory: an instruction word, a return address (R55, R80, R112). -/
abbrev Word := BitVec 16

/-- One 4-bit field of a word (R81). -/
abbrev Nibble := BitVec 4

/-- The field `nnn`: 12 bits (R81). -/
abbrev Addr12 := BitVec 12

/-- The general registers (R7, R20). -/
abbrev RegFile := Vector (BitVec Config.widthV) Config.numV

/-- The address register `I` (R24). -/
abbrev AddrReg := BitVec Config.widthI

/-- The stack pointer (R25). -/
abbrev StackPtr := BitVec Config.widthSp

/-- The program counter (R26). -/
abbrev ProgCounter := BitVec Config.widthPc

/-- The generator's state `rng_seed` (R29). -/
abbrev Seed := BitVec Config.widthSeed

/-- The number of a general register, `V[0]` to `V[15]`; every value is valid (R20). -/
abbrev Reg := Fin Config.numV

/-- `VF` is `V[15]` (R10, R21). -/
abbrev VF : Reg := 15

end Sys2Proof
end

