-- ==== Sys2Proof/Syntax.lean ====
section
/-! DEFINITION. The 24 instructions (R85), one constructor per row of the opcode table. Every operand has exactly
the width of its field (R81), so that every value that can be written down is one the encoding admits. -/

namespace Sys2Proof

inductive Instr where
  /-- `00E0` CLS (R200). -/
  | cls
  /-- `00EE` RET (R113). -/
  | ret
  /-- `1NNN` JP nnn (R108). -/
  | jp (nnn : Addr12)
  /-- `2NNN` CALL nnn (R110). -/
  | call (nnn : Addr12)
  /-- `3XNN` SE Vx, nn (R116). -/
  | seByte (x : Reg) (nn : Byte)
  /-- `4XNN` SNE Vx, nn (R117). -/
  | sneByte (x : Reg) (nn : Byte)
  /-- `5XY0` SE Vx, Vy (R118). -/
  | seReg (x y : Reg)
  /-- `6XNN` LD Vx, nn (R140). -/
  | ldByte (x : Reg) (nn : Byte)
  /-- `7XNN` ADD Vx, nn (R141). -/
  | addByte (x : Reg) (nn : Byte)
  /-- `8XY0` LD Vx, Vy (R142). -/
  | ldReg (x y : Reg)
  /-- `8XY1` OR Vx, Vy (R143). -/
  | orReg (x y : Reg)
  /-- `8XY2` AND Vx, Vy (R144). -/
  | andReg (x y : Reg)
  /-- `8XY3` XOR Vx, Vy (R145). -/
  | xorReg (x y : Reg)
  /-- `8XY4` ADD Vx, Vy (R146). -/
  | addReg (x y : Reg)
  /-- `8XY5` SUB Vx, Vy (R147). -/
  | subReg (x y : Reg)
  /-- `8XY6` SHR Vx, Vy; `y` is encoded and not read (R148). -/
  | shr (x y : Reg)
  /-- `8XY7` SUBN Vx, Vy (R149). -/
  | subnReg (x y : Reg)
  /-- `8XYE` SHL Vx, Vy; `y` is encoded and not read (R150). -/
  | shl (x y : Reg)
  /-- `ANNN` LD I, nnn (R180). -/
  | ldI (nnn : Addr12)
  /-- `CXNN` RND Vx, nn (R154). -/
  | rnd (x : Reg) (nn : Byte)
  /-- `DXYN` DRW Vx, Vy, n (R202). -/
  | drw (x y : Reg) (n : Nibble)
  /-- `FX1E` ADD I, Vx (R181). -/
  | addI (x : Reg)
  /-- `FX55` LD [I], Vx (R182). -/
  | storeRegs (x : Reg)
  /-- `FX65` LD Vx, [I] (R183). -/
  | loadRegs (x : Reg)
  deriving DecidableEq, Repr

end Sys2Proof
end

