-- ==== Sys2Proof/Decode.lean ====
section
/-! DEFINITION. Byte order (R55), the fields of a word (R81), the opcode map (R84), the encoder, and the opcode
table as rows of mask and pattern. -/

namespace Sys2Proof

/-! ### Bytes and words -/

/-- The big-endian word of two bytes (R55, R80). -/
def wordOfBytes (hi lo : Byte) : Word := hi ++ lo

/-- The byte at the lower address (R55). -/
def highByte (w : Word) : Byte := w.extractLsb' 8 8

/-- The byte at the higher address (R55). -/
def lowByte (w : Word) : Byte := w.extractLsb' 0 8

/-! ### Fields (R81) -/

/-- The four nibbles of a word, most significant first: `op`, `x`, `y`, `n`. -/
structure Fields where
  op : Nibble
  x  : Nibble
  y  : Nibble
  n  : Nibble
  deriving DecidableEq, Repr

/-- Every field is extracted from every word (R81, R83, R105). -/
def fields (w : Word) : Fields :=
  { op := w.extractLsb' 12 4, x := w.extractLsb' 8 4, y := w.extractLsb' 4 4, n := w.extractLsb' 0 4 }

/-- `nn`, the low byte (R81). -/
def Fields.nn (f : Fields) : Byte := f.y ++ f.n

/-- `nnn`, the low 12 bits (R81). -/
def Fields.nnn (f : Fields) : Addr12 := f.x ++ f.nn

/-- A nibble used directly as a register number (R82). -/
def regOf (b : Nibble) : Reg := b.toFin

/-- A register number as the nibble that encodes it (R82). -/
def regBits (r : Reg) : Nibble := BitVec.ofFin r

/-- `V[x]` as an operand (R82). -/
def Fields.vx (f : Fields) : Reg := regOf f.x

/-- `V[y]` as an operand (R82). -/
def Fields.vy (f : Fields) : Reg := regOf f.y

/-! ### The opcode map (R84, R86) -/

/-- Family 0 matches the whole word (R86). -/
def family0 (f : Fields) : Option Instr :=
  if f.nnn = 0x0E0#12 then some .cls else if f.nnn = 0x0EE#12 then some .ret else none

/-- Family 8 selects by `n` alone (R86, R151). -/
def family8 (f : Fields) : Option Instr :=
  match f.n.toNat with
  | 0x0 => some (.ldReg f.vx f.vy)
  | 0x1 => some (.orReg f.vx f.vy)
  | 0x2 => some (.andReg f.vx f.vy)
  | 0x3 => some (.xorReg f.vx f.vy)
  | 0x4 => some (.addReg f.vx f.vy)
  | 0x5 => some (.subReg f.vx f.vy)
  | 0x6 => some (.shr f.vx f.vy)
  | 0x7 => some (.subnReg f.vx f.vy)
  | 0xE => some (.shl f.vx f.vy)
  | _ => none

/-- Family F selects by `nn` alone (R86). -/
def familyF (f : Fields) : Option Instr :=
  if f.nn = 0x1E#8 then some (.addI f.vx)
  else if f.nn = 0x55#8 then some (.storeRegs f.vx)
  else if f.nn = 0x65#8 then some (.loadRegs f.vx)
  else none

/-- The dispatch of R84; `none` is FATAL. -/
def opcodeMap (f : Fields) : Option Instr :=
  match f.op.toNat with
  | 0x0 => family0 f
  | 0x1 => some (.jp f.nnn)
  | 0x2 => some (.call f.nnn)
  | 0x3 => some (.seByte f.vx f.nn)
  | 0x4 => some (.sneByte f.vx f.nn)
  | 0x5 => if f.n = 0x0#4 then some (.seReg f.vx f.vy) else none
  | 0x6 => some (.ldByte f.vx f.nn)
  | 0x7 => some (.addByte f.vx f.nn)
  | 0x8 => family8 f
  | 0xA => some (.ldI f.nnn)
  | 0xC => some (.rnd f.vx f.nn)
  | 0xD => some (.drw f.vx f.vy f.n)
  | 0xF => familyF f
  | _ => none

/-- Why bytes give no instruction. -/
inductive Reject where
  /-- A FATAL word (R84, R87): the engine raises `DecodeFatal` with it. -/
  | decodeFatal (w : Word)
  /-- Fewer than the two bytes every instruction has (R80); a fetch always gives two. -/
  | tooShort
  deriving DecidableEq, Repr

/-- Decoding one word (R83 to R87): its instruction, or its rejection by name. -/
def decode (w : Word) : Except Reject Instr :=
  match opcodeMap (fields w) with
  | some i => .ok i
  | none => .error (.decodeFatal w)

/-- Decoding from bytes, high byte first (R80): the instruction and the bytes after it. -/
def decodeBytes : List Byte → Except Reject (Instr × List Byte)
  | hi :: lo :: rest => (decode (wordOfBytes hi lo)).map fun i => (i, rest)
  | _ => .error .tooShort

/-! ### The encoder -/

/-- The word of an instruction, from the "Encoding" line of its rule and the table's bit pattern. -/
def encode : Instr → Word
  | .cls => 0x00E0#16
  | .ret => 0x00EE#16
  | .jp nnn => 0x1#4 ++ nnn
  | .call nnn => 0x2#4 ++ nnn
  | .seByte x nn => 0x3#4 ++ regBits x ++ nn
  | .sneByte x nn => 0x4#4 ++ regBits x ++ nn
  | .seReg x y => 0x5#4 ++ regBits x ++ regBits y ++ 0x0#4
  | .ldByte x nn => 0x6#4 ++ regBits x ++ nn
  | .addByte x nn => 0x7#4 ++ regBits x ++ nn
  | .ldReg x y => 0x8#4 ++ regBits x ++ regBits y ++ 0x0#4
  | .orReg x y => 0x8#4 ++ regBits x ++ regBits y ++ 0x1#4
  | .andReg x y => 0x8#4 ++ regBits x ++ regBits y ++ 0x2#4
  | .xorReg x y => 0x8#4 ++ regBits x ++ regBits y ++ 0x3#4
  | .addReg x y => 0x8#4 ++ regBits x ++ regBits y ++ 0x4#4
  | .subReg x y => 0x8#4 ++ regBits x ++ regBits y ++ 0x5#4
  | .shr x y => 0x8#4 ++ regBits x ++ regBits y ++ 0x6#4
  | .subnReg x y => 0x8#4 ++ regBits x ++ regBits y ++ 0x7#4
  | .shl x y => 0x8#4 ++ regBits x ++ regBits y ++ 0xE#4
  | .ldI nnn => 0xA#4 ++ nnn
  | .rnd x nn => 0xC#4 ++ regBits x ++ nn
  | .drw x y n => 0xD#4 ++ regBits x ++ regBits y ++ n
  | .addI x => 0xF#4 ++ regBits x ++ 0x1E#8
  | .storeRegs x => 0xF#4 ++ regBits x ++ 0x55#8
  | .loadRegs x => 0xF#4 ++ regBits x ++ 0x65#8

/-! ### The opcode table -/

/-- One row of the opcode table: the words `w` with `w & mask = pattern`. -/
structure OpcodeRow where
  mnemonic : String
  mask     : Word
  pattern  : Word
  deriving DecidableEq, Repr

/-- The row claims the word. -/
def OpcodeRow.covers (r : OpcodeRow) (w : Word) : Bool := w &&& r.mask == r.pattern

/-- The 24 rows of the opcode table, in its order, with its spelling of the mnemonics (R85). -/
def opcodeRows : List OpcodeRow :=
  [ ⟨"CLS", 0xFFFF, 0x00E0⟩, ⟨"RET", 0xFFFF, 0x00EE⟩, ⟨"JP_nnn", 0xF000, 0x1000⟩, ⟨"CALL_nnn", 0xF000, 0x2000⟩,
    ⟨"SE_Vx__nn", 0xF000, 0x3000⟩, ⟨"SNE_Vx__nn", 0xF000, 0x4000⟩, ⟨"SE_Vx__Vy", 0xF00F, 0x5000⟩,
    ⟨"LD_Vx__nn", 0xF000, 0x6000⟩, ⟨"ADD_Vx__nn", 0xF000, 0x7000⟩ ] ++
  [ ⟨"LD_Vx__Vy", 0xF00F, 0x8000⟩, ⟨"OR_Vx__Vy", 0xF00F, 0x8001⟩, ⟨"AND_Vx__Vy", 0xF00F, 0x8002⟩,
    ⟨"XOR_Vx__Vy", 0xF00F, 0x8003⟩, ⟨"ADD_Vx__Vy", 0xF00F, 0x8004⟩, ⟨"SUB_Vx__Vy", 0xF00F, 0x8005⟩,
    ⟨"SHR_Vx__Vy", 0xF00F, 0x8006⟩, ⟨"SUBN_Vx__Vy", 0xF00F, 0x8007⟩, ⟨"SHL_Vx__Vy", 0xF00F, 0x800E⟩ ] ++
  [ ⟨"LD_I__nnn", 0xF000, 0xA000⟩, ⟨"RND_Vx__nn", 0xF000, 0xC000⟩, ⟨"DRW_Vx__Vy__n", 0xF000, 0xD000⟩,
    ⟨"ADD_I__Vx", 0xF0FF, 0xF01E⟩, ⟨"LD__I___Vx", 0xF0FF, 0xF055⟩, ⟨"LD_Vx___I", 0xF0FF, 0xF065⟩ ]

/-- The 11 standard opcodes the source lists as unimplemented (R85, R87); FATAL like every word no row of
`opcodeRows` covers. `0NNN` also covers the words of CLS and RET, which are implemented. -/
def unimplementedRows : List OpcodeRow :=
  [ ⟨"0NNN", 0xF000, 0x0000⟩, ⟨"9XY0", 0xF00F, 0x9000⟩, ⟨"BNNN", 0xF000, 0xB000⟩, ⟨"EX9E", 0xF0FF, 0xE09E⟩,
    ⟨"EXA1", 0xF0FF, 0xE0A1⟩, ⟨"FX07", 0xF0FF, 0xF007⟩, ⟨"FX0A", 0xF0FF, 0xF00A⟩, ⟨"FX15", 0xF0FF, 0xF015⟩,
    ⟨"FX18", 0xF0FF, 0xF018⟩, ⟨"FX29", 0xF0FF, 0xF029⟩, ⟨"FX33", 0xF0FF, 0xF033⟩ ]

/-- The mnemonic of an instruction's row in the opcode table. -/
def Instr.mnemonic : Instr → String
  | .cls => "CLS"
  | .ret => "RET"
  | .jp _ => "JP_nnn"
  | .call _ => "CALL_nnn"
  | .seByte _ _ => "SE_Vx__nn"
  | .sneByte _ _ => "SNE_Vx__nn"
  | .seReg _ _ => "SE_Vx__Vy"
  | .ldByte _ _ => "LD_Vx__nn"
  | .addByte _ _ => "ADD_Vx__nn"
  | .ldReg _ _ => "LD_Vx__Vy"
  | .orReg _ _ => "OR_Vx__Vy"
  | .andReg _ _ => "AND_Vx__Vy"
  | .xorReg _ _ => "XOR_Vx__Vy"
  | .addReg _ _ => "ADD_Vx__Vy"
  | .subReg _ _ => "SUB_Vx__Vy"
  | .shr _ _ => "SHR_Vx__Vy"
  | .subnReg _ _ => "SUBN_Vx__Vy"
  | .shl _ _ => "SHL_Vx__Vy"
  | .ldI _ => "LD_I__nnn"
  | .rnd _ _ => "RND_Vx__nn"
  | .drw _ _ _ => "DRW_Vx__Vy__n"
  | .addI _ => "ADD_I__Vx"
  | .storeRegs _ => "LD__I___Vx"
  | .loadRegs _ => "LD_Vx___I"

/-! ### Assembler text (R89): labels with no effect on any rule -/

/-- One hexadecimal digit. -/
def hexDigit (d : Nat) : String :=
  match d with
  | 0 => "0" | 1 => "1" | 2 => "2" | 3 => "3" | 4 => "4" | 5 => "5" | 6 => "6" | 7 => "7"
  | 8 => "8" | 9 => "9" | 10 => "A" | 11 => "B" | 12 => "C" | 13 => "D" | 14 => "E" | _ => "F"

/-- A register, with a hex digit: `V0` to `VF`. -/
def regText (r : Reg) : String := "V" ++ hexDigit r.val

/-- A byte as `0xNN`. -/
def byteText (b : Byte) : String := "0x" ++ hexDigit (b.toNat / 16) ++ hexDigit (b.toNat % 16)

/-- An address as `0xNNN`. -/
def addrText (a : Addr12) : String :=
  "0x" ++ hexDigit (a.toNat / 256) ++ hexDigit (a.toNat / 16 % 16) ++ hexDigit (a.toNat % 16)

/-- An instruction in the notation of R89; there are no pseudo-instructions (R90). -/
def Instr.text : Instr → String
  | .cls => "CLS"
  | .ret => "RET"
  | .jp nnn => "JP " ++ addrText nnn
  | .call nnn => "CALL " ++ addrText nnn
  | .seByte x nn => "SE " ++ regText x ++ ", " ++ byteText nn
  | .sneByte x nn => "SNE " ++ regText x ++ ", " ++ byteText nn
  | .seReg x y => "SE " ++ regText x ++ ", " ++ regText y
  | .ldByte x nn => "LD " ++ regText x ++ ", " ++ byteText nn
  | .addByte x nn => "ADD " ++ regText x ++ ", " ++ byteText nn
  | .ldReg x y => "LD " ++ regText x ++ ", " ++ regText y
  | .orReg x y => "OR " ++ regText x ++ ", " ++ regText y
  | .andReg x y => "AND " ++ regText x ++ ", " ++ regText y
  | .xorReg x y => "XOR " ++ regText x ++ ", " ++ regText y
  | .addReg x y => "ADD " ++ regText x ++ ", " ++ regText y
  | .subReg x y => "SUB " ++ regText x ++ ", " ++ regText y
  | .shr x y => "SHR " ++ regText x ++ ", " ++ regText y
  | .subnReg x y => "SUBN " ++ regText x ++ ", " ++ regText y
  | .shl x y => "SHL " ++ regText x ++ ", " ++ regText y
  | .ldI nnn => "LD I, " ++ addrText nnn
  | .rnd x nn => "RND " ++ regText x ++ ", " ++ byteText nn
  | .drw x y n => "DRW " ++ regText x ++ ", " ++ regText y ++ ", " ++ toString n.toNat
  | .addI x => "ADD I, " ++ regText x
  | .storeRegs x => "LD [I], " ++ regText x
  | .loadRegs x => "LD " ++ regText x ++ ", [I]"

/-! ### The host's view of the decoder -/

/-- The first word of an instruction whose bits, numbered as the opcode table numbers them, are `w`; the bits above
`nbits` are 0. Every instruction is one word (R80). -/
def tableWord (nbits w : Nat) : Word := BitVec.ofNat 16 (w % 2 ^ nbits)

/-- What the decoder reads from that instruction, laid out as the hardware stores it: high byte first (R55). -/
def decodeTableWord (nbits w : Nat) : Option Instr :=
  match decodeBytes [highByte (tableWord nbits w), lowByte (tableWord nbits w)] with
  | .ok (i, _) => some i
  | .error _ => none

end Sys2Proof
end

