-- ==== Sys2Proof/WellFormed.lean ====
section
/-! DEFINITION. The checks the spec makes on what is given to the machine from outside: a layout (R8) and a program
(R262). An instruction needs none: its operands have exactly the widths of their fields, every one of whose values
is legal ("valid 0–15 by construction", R20; "no field is required to be zero", R86), so no ill-formed term of
`Instr` can be written. Ill-formed WORDS are refused by `decode`. -/

namespace Sys2Proof

/-- R8, first point: the four regions are disjoint and in address order. -/
def Layout.ordered (l : Layout) : Bool :=
  decide (0 < l.programStart) && decide (l.programStart < l.stackStart) && decide (l.stackStart < l.stackEnd) &&
    decide (l.stackEnd ≤ l.fbStart) && decide (l.fbStart + l.fbSize ≤ Config.memSize)

/-- R8, second point. -/
def Layout.evenBounds (l : Layout) : Bool :=
  l.programStart % 2 == 0 && l.stackStart % 2 == 0 && l.stackEnd % 2 == 0

/-- R8, third point. -/
def Layout.stackRoom (l : Layout) : Bool :=
  (l.stackEnd - l.stackStart) % 2 == 0 && decide (2 ≤ l.stackEnd - l.stackStart)

/-- R8, fourth point. -/
def Layout.rowsFit (l : Layout) : Bool := decide (l.screenW ≤ l.bytesPerRow * 8)

/-- R8: what a layout must satisfy. -/
def Layout.wellFormed (l : Layout) : Bool := l.ordered && l.evenBounds && l.stackRoom && l.rowsFit

/-- R262: a program's length must be strictly smaller than the program region's size. -/
def Layout.programFits (l : Layout) (p : List Byte) : Bool := decide (p.length < l.stackStart - l.programStart)

end Sys2Proof
end

