-- ==== Sys2Proof/Machine/Parameters.lean ====
section
/-! DEFINITION. The values the spec decides for what its source leaves open: the layout (R7; D1 to D3), the two
configuration switches (93 U8, U9; D9, D10), and the seed that stands in `State.reset` (D16). Each is a named
constant, so that a claim can be restated for another value (R7). -/

namespace Sys2Proof.Machine

/-- The decided layout (R7). UNVERIFIED: the spec's own decision, the classic 4 KiB CHIP-8 layout; log entry 4. -/
def layout : Layout :=
  { programStart := 0x200, stackStart := 0xEA0, stackEnd := 0xF00, fbStart := 0xF00,
    screenW := 64, screenH := 32, bytesPerRow := 8 }

/-- `flag_last` (U8, default true): `8XY4`, `8XY5` and `8XY7` write `V[x]` and then `VF` (R157, D9). Log entry 5. -/
def flagLast : Bool := true

/-- `shift_reads_updated` (U9, default true): the shift of `8XY6` and `8XYE` reads `V[x]` after the `VF` write
(R148, R150, D10). Log entry 5. -/
def shiftReadsUpdated : Bool := true

/-- `SEED` of `State.reset`. DESIGN CHOICE 1: the spec leaves it open, an argument of reset (R39, D16); 1 is the
seed of the spec's vectors (95). Log entry 3. -/
def resetSeed : Seed := 1

/-- The region an address lies in; `none` at and above `MEM_SIZE`, and for an address no region of the layout holds
(R50; the decided layout leaves no such gap). -/
def regionOf (a : Nat) : Option Region :=
  if a < layout.programStart then some .reserved
  else if a < layout.stackStart then some .program
  else if a < layout.stackEnd then some .stack
  else if layout.fbStart ≤ a ∧ a < layout.fbStart + layout.fbSize then some .framebuffer
  else none

end Sys2Proof.Machine
end

