-- ==== Sys2Proof/Machine/State.lean ====
section
/-! DEFINITION. The architectural state (10_state.md), plain data, and its value at reset. -/

namespace Sys2Proof.Machine

/-- The four operations of the display surface, as events (R35, R38). Coordinates are framebuffer pixels. -/
inductive DisplayEvent where
  | clear
  | drawPx (x y : Nat)
  | clearPx (x y : Nat)
  | present
  deriving DecidableEq, Repr

/-- The diagnostic `(kind, info)` of a fault (R230, R232). Every kind records the faulting instruction's `pc`. -/
inductive Diagnostic where
  /-- Code 1: a FATAL word reached dispatch; the word is `w`. -/
  | decodeFatal (pc : ProgCounter) (w : Word)
  /-- Code 2: a call would move `SP` below `STACK_START`; `SP` before the call. -/
  | stackOverflow (pc : ProgCounter) (sp : StackPtr)
  /-- Code 3: a return with an empty call stack. -/
  | stackUnderflow (pc : ProgCounter) (sp : StackPtr)
  /-- Code 4: a data access at or above `MEM_SIZE`; the lowest out-of-range address. -/
  | memOutOfRange (pc : ProgCounter) (addr : Nat)
  /-- Code 5: `PC < PROGRAM_START` or `PC > MEM_SIZE - 2` at the start of a step. -/
  | fetchOutOfRange (pc : ProgCounter)
  /-- Code 6: `PC` odd at the start of a step. -/
  | fetchMisaligned (pc : ProgCounter)
  deriving DecidableEq, Repr

/-- The run status (R30). -/
inductive RunStatus where
  /-- The only status in which a step executes. -/
  | running
  /-- The controlled halt of a self-jump (R109, R236). -/
  | halted
  /-- Any fatal condition (R230), with its diagnostic. -/
  | faulted (d : Diagnostic)
  deriving DecidableEq, Repr

/-- The 4096 bytes of memory (R28) as address and byte pairs, in the canonical form of `Memory.wf`. -/
abbrev Memory := List Host.Cell

/-- The machine state: the items of 10_state.md and nothing else. -/
structure State where
  /-- `V[0]` to `V[15]` (R20). -/
  v : RegFile
  /-- `I`, the address register (R24). -/
  i : AddrReg
  /-- `SP`, the stack pointer (R25). -/
  sp : StackPtr
  /-- `PC`, the program counter (R26). -/
  pc : ProgCounter
  /-- Memory, the framebuffer among it (R28, R34). -/
  memory : Memory
  /-- `rng_seed`, the generator's state (R29). -/
  rngSeed : Seed
  /-- The run status with its diagnostic (R30, R232). -/
  status : RunStatus
  /-- The display events emitted so far, oldest first (R38). -/
  events : List DisplayEvent
  /-- `used_memory_len`, the length of the loaded program (R32). -/
  usedMemoryLen : Nat
  deriving DecidableEq, Repr

/-- No step ends in a host fault: every fault the spec names is a transition to `Faulted` that State holds (R233,
R237), a next state. The type has no constructor; log entry 1. -/
inductive Fault where
  deriving DecidableEq, Repr

/-- Why a step has no meaning. -/
inductive Refusal where
  /-- An instruction that the model does not give a meaning to; raised by `exec` alone, safe. No arm raises it. -/
  | notModelled (mnemonic : String)
  deriving DecidableEq, Repr

/-- The machine after reset with the given `SEED`, before a program is loaded (R39, R260, R261). -/
def State.resetWith (seed : Seed) : State :=
  { v := Vector.replicate Config.numV 0
    i := 0
    sp := BitVec.ofNat Config.widthSp layout.stackEnd
    pc := BitVec.ofNat Config.widthPc layout.programStart
    memory := []
    rngSeed := seed
    status := .running
    events := []
    usedMemoryLen := 0 }

/-- The machine right after reset. The seed is a DESIGN CHOICE (log entry 3), `usedMemoryLen` too (log entry 6). -/
def State.reset : State := State.resetWith resetSeed

end Sys2Proof.Machine
end

