-- ==== Sys2Proof/Machine/Ops.lean ====
section
/-! DEFINITION. The named operations over memory and registers (R10), advancing `PC` (R11), and taking a fault
(R233) or the halt (R236). -/

namespace Sys2Proof.Machine

/-! ### Memory -/

/-- What an address that memory does not list reads as: the reset contents (R39, R51, R63). -/
def Memory.unlisted : Byte := 0

/-- One byte of memory. -/
def Memory.read : Memory → Nat → Byte
  | [], _ => Memory.unlisted
  | (k, c) :: m, a => if a = k then c else Memory.read m a

/-- Put a byte into the list, keeping it sorted and free of bytes an unlisted address reads as. -/
def Memory.put : Memory → Nat → Byte → Memory
  | [], a, b => if b = Memory.unlisted then [] else [(a, b)]
  | (k, c) :: m, a, b =>
    if a < k then (if b = Memory.unlisted then (k, c) :: m else (a, b) :: (k, c) :: m)
    else if a = k then (if b = Memory.unlisted then m else (a, b) :: m)
    else (k, c) :: Memory.put m a b

/-- Write one byte of memory. Memory has no address at or above `MEM_SIZE`; every instruction checks its addresses
before it writes (R58, R233), so that no instruction reaches the second case (log entry 10). -/
def Memory.write (m : Memory) (a : Nat) (b : Byte) : Memory :=
  if a < Config.memSize then Memory.put m a b else m

/-- Write `k` bytes from a list, the first at `a`. -/
def Memory.writeAll (m : Memory) (a : Nat) : List Byte → Memory
  | [] => m
  | b :: bs => Memory.writeAll (Memory.write m a b) (a + 1) bs

/-- Write the byte `b` at each of the `k` addresses from `a`. -/
def Memory.fill (m : Memory) (a : Nat) (b : Byte) : Nat → Memory
  | 0 => m
  | k + 1 => Memory.write (Memory.fill m a b k) (a + k) b

/-- The canonical form from address `lo` on. -/
def Memory.wfFrom (lo : Nat) : Memory → Bool
  | [] => true
  | (k, c) :: m =>
    decide (lo ≤ k) && decide (k < Config.memSize) && decide (c ≠ Memory.unlisted) && Memory.wfFrom (k + 1) m

/-- The canonical form: addresses strictly rising and below `MEM_SIZE`, no byte that an unlisted address reads as. -/
def Memory.wf (m : Memory) : Bool := Memory.wfFrom 0 m

/-- The bytes an access of `k` bytes at `base` needs exist, or the lowest of its addresses that does not:
`check` of R184 and R203, `max(base, MEM_SIZE)` where it fails. Addresses are unbounded integers (R58). -/
def outOfRange (base k : Nat) : Option Nat :=
  if Config.memSize < base + k then some (max base Config.memSize) else none

/-! ### Loops -/

/-- `for j in 0 .. k-1`: the body at 0 first. -/
def forUpTo {α : Type} (body : Nat → α → α) : Nat → α → α
  | 0, s => s
  | k + 1, s => body k (forUpTo body k s)

/-! ### Access to the state (R10) -/

/-- `V[r]`. -/
def State.readV (s : State) (r : Reg) : Byte := s.v.get r

/-- `V[r] <- b`. -/
def State.writeV (s : State) (r : Reg) (b : Byte) : State := { s with v := s.v.set r b }

/-- `MemRead(a, 1)`. -/
def State.memRead (s : State) (a : Nat) : Byte := Memory.read s.memory a

/-- `MemRead(a, 2)`, big-endian (R10, R55). -/
def State.memRead2 (s : State) (a : Nat) : Word := wordOfBytes (s.memRead a) (s.memRead (a + 1))

/-- `MemWrite(a, 1, b)`. -/
def State.memWrite (s : State) (a : Nat) (b : Byte) : State := { s with memory := Memory.write s.memory a b }

/-- `emit e` (R38). -/
def State.emit (s : State) (e : DisplayEvent) : State := { s with events := s.events ++ [e] }

/-- `PC <- w`: the end of a body that set `next_pc` itself (R11, R107). -/
def State.setPc (s : State) (w : ProgCounter) : State := { s with pc := w }

/-- `I <- w`. -/
def State.setI (s : State) (w : AddrReg) : State := { s with i := w }

/-- `SP <- w`. -/
def State.setSp (s : State) (w : StackPtr) : State := { s with sp := w }

/-- `rng_seed <- x`. -/
def State.setSeed (s : State) (x : Seed) : State := { s with rngSeed := x }

/-- `next_pc` of a body that does not set it: `PC <- pc + 2` (R11, R107). -/
def State.advance (s : State) : State := s.setPc (s.pc + 2)

/-- The end of a skip: `pc + 4` when its condition holds, else `pc + 2` (R107, R119). -/
def State.skipIf (s : State) (c : Bool) : State := if c then s.setPc (s.pc + 4) else s.advance

/-! ### Taking a fault, and the halt -/

/-- `raise Fault(kind, info)`: the run status becomes `Faulted` and every other item stays as it was (R233). This is
the whole of trap entry; there is no handler, no saved register and no return from it (R237). -/
def State.raise (s : State) (d : Diagnostic) : State := { s with status := .faulted d }

/-- `halt`: the run status becomes `Halted` and nothing else changes (R109, R236). -/
def State.halt (s : State) : State := { s with status := .halted }

/-- The numeric code of a fault kind (R230). -/
def Diagnostic.code : Diagnostic → Nat
  | .decodeFatal _ _ => 1
  | .stackOverflow _ _ => 2
  | .stackUnderflow _ _ => 3
  | .memOutOfRange _ _ => 4
  | .fetchOutOfRange _ => 5
  | .fetchMisaligned _ => 6

/-- `info.pc` (R232). -/
def Diagnostic.pc : Diagnostic → ProgCounter
  | .decodeFatal pc _ => pc
  | .stackOverflow pc _ => pc
  | .stackUnderflow pc _ => pc
  | .memOutOfRange pc _ => pc
  | .fetchOutOfRange pc => pc
  | .fetchMisaligned pc => pc

/-- An access of `k` bytes at `base`: `body` when every byte exists, else `MemOutOfRange` before any write (R58,
R184, R203). -/
def State.checked (s : State) (base k : Nat) (body : State) : State :=
  match outOfRange base k with
  | some a => s.raise (.memOutOfRange s.pc a)
  | none => body

/-- What a meaning answers. -/
abbrev Result := Host.Outcome State Fault Refusal

end Sys2Proof.Machine
end

