-- ==== Sys2Proof/Machine/Operands.lean ====
section
/-! DEFINITION. Every operand and address form (R68, R82) and the value each computation gives its destination,
computed exactly on natural numbers and narrowed at the end (R9). -/

namespace Sys2Proof.Machine

/-! ### Immediates and results -/

/-- `zext_16(nnn)` as it is written into `PC` (R82). -/
def zextPc (nnn : Addr12) : ProgCounter := nnn.setWidth Config.widthPc

/-- `zext_16(nnn)` as it is written into `I` (R82, R180). -/
def zextI (nnn : Addr12) : AddrReg := nnn.setWidth Config.widthI

/-- `trunc_8(a + b)` (R141, R146). -/
def sum8 (a b : Byte) : Byte := BitVec.ofNat 8 (a.toNat + b.toNat)

/-- `trunc_8(a + 256 - b)` (R147, R149). -/
def diff8 (a b : Byte) : Byte := BitVec.ofNat 8 (a.toNat + 256 - b.toNat)

/-- `a >> 1`, logical (R148). -/
def shr1 (a : Byte) : Byte := a >>> 1

/-- `trunc_8(a << 1)` (R150). -/
def shl1 (a : Byte) : Byte := a <<< 1

/-- `trunc_16(I + V[x])` (R181). -/
def sumI (a : AddrReg) (b : Byte) : AddrReg := BitVec.ofNat Config.widthI (a.toNat + b.toNat)

/-- One xorshift step on the generator's state (R152). -/
def nextRandom (s0 : Seed) : Seed :=
  let s1 := s0 ^^^ (s0 <<< Config.rngShiftA)
  let s2 := s1 ^^^ (s1 >>> Config.rngShiftB)
  s2 ^^^ (s2 <<< Config.rngShiftC)

/-- `trunc_8(r)`: "Only the low 8 bits are consumed" (R154). -/
def randomByte (r : Seed) : Byte := r.setWidth 8

/-! ### Addresses -/

/-- `I` as the base of a bulk or sprite access: an unbounded integer (R58, R184). -/
def State.base (s : State) : Nat := s.i.toNat

/-- Register `k` of a bulk access (R182, R183); only `k <= 15` is used. -/
def bulkReg (k : Nat) : Reg := Fin.ofNat Config.numV k

/-- The byte that holds the pixel `(x, y)` (R34, R68). -/
def pixelAddr (x y : Nat) : Nat := layout.fbStart + y * layout.bytesPerRow + x / 8

/-- The bit of that byte that is the pixel (R34). -/
def pixelBit (x : Nat) : Nat := 7 - x % 8

/-- The pixel `(x, y)` is lit (R34). -/
def State.pixel (s : State) (x y : Nat) : Bool := (s.memRead (pixelAddr x y)).getLsbD (pixelBit x)

/-- Column `c` of a sprite byte: bit `7 - c`, the most significant bit leftmost (R201). -/
def spriteBit (sb : Byte) (c : Nat) : Bool := sb.getLsbD (7 - c)

/-- The rows of a sprite that are not clipped vertically: `max(0, min(n, SCREEN_H - y0))` (R202, R203). -/
def spriteRows (n : Nibble) (y0 : Byte) : Nat := min n.toNat (layout.screenH - y0.toNat)

/-! ### The call stack (R53, R112, R114) -/

/-- Push a return address, big-endian, at the decremented `SP` (R110, R112). -/
def State.push (s : State) (ra : Word) : State :=
  let s := s.setSp (s.sp - 2)
  let s := s.memWrite s.sp.toNat (highByte ra)
  s.memWrite (s.sp.toNat + 1) (lowByte ra)

/-- The return address at the top of the stack (R114). -/
def State.top (s : State) : Word := s.memRead2 s.sp.toNat

end Sys2Proof.Machine
end

