-- ==== Sys2Proof/Machine/Flags.lean ====
section
/-! DEFINITION. The values `VF` receives as a flag (R21), and the order of the flag's write and the result's. -/

namespace Sys2Proof.Machine

/-- A condition as the byte 1 or 0. -/
def flagByte (c : Bool) : Byte := if c then 1 else 0

/-- `8XY4`: the carry out of bit 7 (R146). -/
def carry (a b : Byte) : Byte := flagByte (decide (255 < a.toNat + b.toNat))

/-- `8XY5`, `8XY7`: 1 if `a - b` does not borrow (R147, R149). -/
def notBorrow (a b : Byte) : Byte := flagByte (decide (b.toNat ≤ a.toNat))

/-- `8XY6`: bit 0 (R148). -/
def lowBit (a : Byte) : Byte := a &&& 1

/-- `8XYE`: bit 7 (R150). -/
def highBit (a : Byte) : Byte := (a >>> 7) &&& 1

/-- `8XY4`, `8XY5`, `8XY7`: the result and the flag, both computed from the operands read before; with `last` the
flag is written last (R157; U8). -/
def State.writeWithFlag (last : Bool) (s : State) (x : Reg) (result flag : Byte) : State :=
  if last then (s.writeV x result).writeV VF flag else (s.writeV VF flag).writeV x result

/-- `8XY6`, `8XYE`: `VF` receives the shifted-out bit, then `V[x]` is shifted; with `updated` the shift reads `V[x]`
after the `VF` write (R148, R150, R12; U9). -/
def State.shiftWithFlag (updated : Bool) (s : State) (x : Reg) (out shift : Byte → Byte) : State :=
  let a := s.readV x
  let s := s.writeV VF (out a)
  s.writeV x (shift (if updated then s.readV x else a))

end Sys2Proof.Machine
end

