-- ==== Sys2Proof/Machine/Alu.lean ====
section
/-! DEFINITION. ALU instructions and the generator (41_alu.md). -/

namespace Sys2Proof.Machine

/-- `6XNN` (R140). -/
def execLdByte (x : Reg) (nn : Byte) (s : State) : Result := .next (s.writeV x nn).advance

/-- `7XNN`, no flag (R141). -/
def execAddByte (x : Reg) (nn : Byte) (s : State) : Result := .next (s.writeV x (sum8 (s.readV x) nn)).advance

/-- `8XY0` (R142). -/
def execLdReg (x y : Reg) (s : State) : Result := .next (s.writeV x (s.readV y)).advance

/-- `8XY1`, no flag (R143). -/
def execOrReg (x y : Reg) (s : State) : Result := .next (s.writeV x (s.readV x ||| s.readV y)).advance

/-- `8XY2`, no flag (R144). -/
def execAndReg (x y : Reg) (s : State) : Result := .next (s.writeV x (s.readV x &&& s.readV y)).advance

/-- `8XY3`, no flag (R145). -/
def execXorReg (x y : Reg) (s : State) : Result := .next (s.writeV x (s.readV x ^^^ s.readV y)).advance

/-- `8XY4`: `VF` is the carry (R146, R157). -/
def execAddReg (x y : Reg) (s : State) : Result :=
  let a := s.readV x
  let b := s.readV y
  .next (s.writeWithFlag flagLast x (sum8 a b) (carry a b)).advance

/-- `8XY5`: `V[x] - V[y]`, `VF` is NOT borrow (R147, R157). -/
def execSubReg (x y : Reg) (s : State) : Result :=
  let a := s.readV x
  let b := s.readV y
  .next (s.writeWithFlag flagLast x (diff8 a b) (notBorrow a b)).advance

/-- `8XY6`: `VF` receives bit 0, then `V[x]` is shifted right; `V[y]` is never read (R148). -/
def execShr (x : Reg) (s : State) : Result := .next (s.shiftWithFlag shiftReadsUpdated x lowBit shr1).advance

/-- `8XY7`: `V[y] - V[x]`, `VF` is NOT borrow (R149, R157). -/
def execSubnReg (x y : Reg) (s : State) : Result :=
  let a := s.readV x
  let b := s.readV y
  .next (s.writeWithFlag flagLast x (diff8 b a) (notBorrow b a)).advance

/-- `8XYE`: `VF` receives bit 7, then `V[x]` is shifted left; `V[y]` is never read (R150). -/
def execShl (x : Reg) (s : State) : Result := .next (s.shiftWithFlag shiftReadsUpdated x highBit shl1).advance

/-- `CXNN`: advance the generator once, and mask the low byte of its new state (R152, R154). -/
def execRnd (x : Reg) (nn : Byte) (s : State) : Result :=
  let r := nextRandom s.rngSeed
  .next ((s.setSeed r).writeV x (randomByte r &&& nn)).advance

end Sys2Proof.Machine
end

