-- ==== Sys2Proof/Machine/Control.lean ====
section
/-! DEFINITION. Program-counter control (40_engine_and_pc_control.md): jump and halt, call and return, skips. `s.pc`
is the fetch address `pc` of the instruction (R11). -/

namespace Sys2Proof.Machine

/-- `1NNN`: jump; a jump to its own address halts (R108, R109). -/
def execJp (nnn : Addr12) (s : State) : Result :=
  if zextPc nnn = s.pc then .next s.halt else .next (s.setPc (zextPc nnn))

/-- `2NNN`: push `pc + 2` and jump, or `StackOverflow` when `SP - 2 < STACK_START` (R110 to R112). The byte addresses
`SP - 2` and `SP - 1` are checked as every address is (R58); with `SP <= STACK_END` (R25) they exist. -/
def execCall (nnn : Addr12) (s : State) : Result :=
  if s.sp.toNat < layout.stackStart + 2 then .next (s.raise (.stackOverflow s.pc s.sp))
  else .next (s.checked (s.sp.toNat - 2) 2 ((s.push (s.pc + 2)).setPc (zextPc nnn)))

/-- `00EE`: pop the return address, or `StackUnderflow` when `SP + 2 > STACK_END` (R113 to R115). -/
def execRet (s : State) : Result :=
  if layout.stackEnd < s.sp.toNat + 2 then .next (s.raise (.stackUnderflow s.pc s.sp))
  else .next ((s.setPc s.top).setSp (s.sp + 2))

/-- `3XNN` (R116). -/
def execSeByte (x : Reg) (nn : Byte) (s : State) : Result := .next (s.skipIf (s.readV x == nn))

/-- `4XNN` (R117). -/
def execSneByte (x : Reg) (nn : Byte) (s : State) : Result := .next (s.skipIf (s.readV x != nn))

/-- `5XY0` (R118). -/
def execSeReg (x y : Reg) (s : State) : Result := .next (s.skipIf (s.readV x == s.readV y))

end Sys2Proof.Machine
end

