-- ==== Sys2Proof/Machine/LoadStore.lean ====
section
/-! DEFINITION. The address register and bulk load-store (42_load_store.md). -/

namespace Sys2Proof.Machine

/-- `ANNN` (R180). -/
def execLdI (nnn : Addr12) (s : State) : Result := .next (s.setI (zextI nnn)).advance

/-- `FX1E`, no flag (R181). -/
def execAddI (x : Reg) (s : State) : Result := .next (s.setI (sumI s.i (s.readV x))).advance

/-- `MemWrite(I + j, 1, V[j])` (R182). -/
def State.storeReg (j : Nat) (s : State) : State := s.memWrite (s.base + j) (s.readV (bulkReg j))

/-- `V[j] <- MemRead(I + j, 1)` (R183). -/
def State.loadReg (j : Nat) (s : State) : State := s.writeV (bulkReg j) (s.memRead (s.base + j))

/-- Store `V[0]`..`V[k-1]` from `I` on, in that order (R182). -/
def State.storeRegs (s : State) (k : Nat) : State := forUpTo State.storeReg k s

/-- Load `V[0]`..`V[k-1]` from `I` on, in that order (R183). -/
def State.loadRegs (s : State) (k : Nat) : State := forUpTo State.loadReg k s

/-- `FX55`: store `V[0]`..`V[x]`; `I` is unchanged (R182, R184). -/
def execStoreRegs (x : Reg) (s : State) : Result :=
  .next (s.checked s.base (x.val + 1) (s.storeRegs (x.val + 1)).advance)

/-- `FX65`: load `V[0]`..`V[x]`; `I` is unchanged (R183, R184). -/
def execLoadRegs (x : Reg) (s : State) : Result :=
  .next (s.checked s.base (x.val + 1) (s.loadRegs (x.val + 1)).advance)

end Sys2Proof.Machine
end

