-- ==== Sys2Proof/Machine/Sprite.lean ====
section
/-! DEFINITION. Framebuffer clear and the sprite blitter (43_sprite_blitter.md). -/

namespace Sys2Proof.Machine

/-- `00E0`: zero every framebuffer byte, then tell the display surface (R200, D31). -/
def execCls (s : State) : Result :=
  let s := { s with memory := Memory.fill s.memory layout.fbStart 0 layout.fbSize }
  .next ((s.emit .clear).emit .present).advance

/-- Flip the pixel `(cx, cy)`: a lit pixel is a collision and goes dark; the event follows the write (R202, R205,
R206). -/
def State.flipPixel (cx cy : Nat) (s : State) : State :=
  let old := s.memRead (pixelAddr cx cy)
  let lit := old.getLsbD (pixelBit cx)
  let s := if lit then s.writeV VF 1 else s
  let s := s.memWrite (pixelAddr cx cy) (old ^^^ (1#8 <<< pixelBit cx))
  s.emit (if lit then .clearPx cx cy else .drawPx cx cy)

/-- Column `c` of a sprite row: a column at or past `SCREEN_W` is clipped, a 0 bit has no effect (R202, R204). Columns
rise, so that once one is clipped all later ones are: the rule's `break`. -/
def State.drawColumn (sb : Byte) (x0 cy c : Nat) (s : State) : State :=
  if x0 + c < layout.screenW ∧ spriteBit sb c then s.flipPixel (x0 + c) cy else s

/-- Row `j` of a sprite, its byte read when the row is processed, after the rows before it (R202, R208). -/
def State.drawRow (x0 y0 j : Nat) (s : State) : State :=
  forUpTo (State.drawColumn (s.memRead (s.base + j)) x0 (y0 + j)) 8 s

/-- The draw of R202 once its check has passed: `VF <- 0`, the rows that are not clipped vertically, one `present()`. -/
def State.drawSprite (s : State) (x0 y0 rows : Nat) : State :=
  (forUpTo (State.drawRow x0 y0) rows (s.writeV VF 0)).emit .present

/-- `DXYN`: the coordinates are read before `VF` is reset (R209); the rows that are read are checked before any write,
and none is when no row is read (R202, R203, R207). -/
def execDrw (x y : Reg) (n : Nibble) (s : State) : Result :=
  let x0 := s.readV x
  let y0 := s.readV y
  let rows := spriteRows n y0
  let t := (s.drawSprite x0.toNat y0.toNat rows).advance
  .next (if rows = 0 then t else s.checked s.base rows t)

end Sys2Proof.Machine
end

