-- ==== Sys2Proof/Machine/Fetch.lean ====
section
/-! DEFINITION. The parts of a step around the instruction's meaning (R100 to R106): the fetch checks, the fetch, a
FATAL word, a stopped machine. -/

namespace Sys2Proof.Machine

/-- The fetch checks, range before alignment (R102, R103, R235); `none` when both pass. -/
def State.fetchFault (s : State) : Option Diagnostic :=
  if s.pc.toNat < layout.programStart ∨ Config.memSize < s.pc.toNat + 2 then some (.fetchOutOfRange s.pc)
  else if s.pc.toNat % 2 ≠ 0 then some (.fetchMisaligned s.pc)
  else none

/-- The word at `PC`, from the current memory (R104, R66). -/
def State.fetch (s : State) : Word := s.memRead2 s.pc.toNat

/-- The step of a word that gives no instruction: `DecodeFatal` with the fetched word (R106, R87). -/
def State.rejected (s : State) : Result := .next (s.raise (.decodeFatal s.pc s.fetch))

/-- A step request on a stopped machine returns with no change (R101, R270). -/
def State.stopped (s : State) : Result := .next s

/-- The state with a word at `PC`, high byte first. -/
def State.placeWord (s : State) (w : Word) : State :=
  (s.memWrite s.pc.toNat (highByte w)).memWrite (s.pc.toNat + 1) (lowByte w)

end Sys2Proof.Machine
end

