-- ==== Sys2Proof/Machine/Step.lean ====
section
/-! DEFINITION. One step of the core (R100). -/

namespace Sys2Proof.Machine

/-- Check the status, fetch, decode, execute (R100). The advance of `PC` (R107) is the end of each meaning. -/
def step (s : State) : Host.Outcome State Fault Refusal :=
  match s.status with
  | .running =>
    match s.fetchFault with
    | some d => .next (s.raise d)
    | none =>
      match decode s.fetch with
      | .ok i => exec i s
      | .error _ => s.rejected
  | .halted => s.stopped
  | .faulted _ => s.stopped

/-- `s` with an instruction of the opcode table placed where `step` fetches its next one: the word at `PC`. -/
def State.withFetchWord (s : State) (nbits w : Nat) : State := s.placeWord (tableWord nbits w)

end Sys2Proof.Machine
end

