-- ==== Sys2Proof/Machine/HostInterface.lean ====
section
/-! DEFINITION. What the host can do (R270): create and load the machine, see a step's events, read the accessors. -/

namespace Sys2Proof.Machine

/-- Copy a program verbatim to `PROGRAM_START` and record its length (R262). -/
def State.load (s : State) (p : List Byte) : State :=
  { s with memory := Memory.writeAll s.memory layout.programStart p, usedMemoryLen := p.length }

/-- Reset with a seed, then program load (R261). A program that does not fit is a load error: no machine is started
(R262, R263). -/
def boot (seed : Seed) (p : List Byte) : Option State :=
  if layout.programFits p then some ((State.resetWith seed).load p) else none

/-- The read-only accessors of the debug interface (R244, D32). -/
structure DebugView where
  v      : RegFile
  i      : AddrReg
  sp     : StackPtr
  pc     : ProgCounter
  status : RunStatus
  deriving DecidableEq, Repr

/-- What the accessors read. -/
def State.debugView (s : State) : DebugView :=
  { v := s.v, i := s.i, sp := s.sp, pc := s.pc, status := s.status }

/-- The display events of one step, which the step returns to the host (R270): those it appends (R38). -/
def stepEvents (s : State) : List DisplayEvent :=
  match step s with
  | .next t => t.events.drop s.events.length
  | .fault _ => []
  | .refused _ => []

end Sys2Proof.Machine
end

