-- ==== Sys2Proof/Safety.lean ====
section
/-! DEFINITION. The terms claims use: the invariant of a run, the spec's tables of what each instruction may write
(R21, R22, R36, R57), and when each fault arises (R230, R235). -/

namespace Sys2Proof.Machine

/-! ### When a fault arises -/

/-- The check of its own that an instruction makes (R235, fifth point; R230). -/
def ownCheck (s : State) : Instr → Option Diagnostic
  | .call _ => if s.sp.toNat < layout.stackStart + 2 then some (.stackOverflow s.pc s.sp) else none
  | .ret => if s.sp.toNat + 2 > layout.stackEnd then some (.stackUnderflow s.pc s.sp) else none
  | .storeRegs x | .loadRegs x =>
    if s.i.toNat + x.val ≥ Config.memSize then some (.memOutOfRange s.pc (max s.i.toNat Config.memSize)) else none
  | .drw _ y n =>
    let rows := min n.toNat (layout.screenH - (s.readV y).toNat)
    if rows > 0 ∧ s.i.toNat + rows - 1 ≥ Config.memSize then
      some (.memOutOfRange s.pc (max s.i.toNat Config.memSize)) else none
  | .cls | .jp _ | .seByte _ _ | .sneByte _ _ | .seReg _ _ | .ldByte _ _ | .addByte _ _ | .ldReg _ _ | .orReg _ _
  | .andReg _ _ | .xorReg _ _ | .addReg _ _ | .subReg _ _ | .shr _ _ | .subnReg _ _ | .shl _ _ | .ldI _ | .rnd _ _
  | .addI _ => none

/-- The fault a step from this state takes, by the priority of R235; `none` when it takes none. -/
def State.faultCause (s : State) : Option Diagnostic :=
  if s.pc.toNat < layout.programStart ∨ s.pc.toNat > Config.memSize - 2 then some (.fetchOutOfRange s.pc)
  else if s.pc.toNat % 2 = 1 then some (.fetchMisaligned s.pc)
  else
    match decode (s.memRead2 s.pc.toNat) with
    | .ok i => ownCheck s i
    | .error _ => some (.decodeFatal s.pc (s.memRead2 s.pc.toNat))

/-- The word at `PC` is a `1NNN` that jumps to its own address (R109). -/
def State.atSelfJump (s : State) : Prop :=
  s.faultCause = none ∧ ∃ nnn, decode (s.memRead2 s.pc.toNat) = .ok (.jp nnn) ∧ nnn.toNat = s.pc.toNat

/-! ### The invariant of a run -/

/-- The invariant of `SP` (R25). -/
abbrev State.spOk (s : State) : Prop :=
  layout.stackStart ≤ s.sp.toNat ∧ s.sp.toNat ≤ layout.stackEnd ∧ s.sp.toNat % 2 = 0

/-- A pixel event names a pixel of the screen (R34, R35). -/
def DisplayEvent.onScreen : DisplayEvent → Prop
  | .clear => True
  | .drawPx x y => x < layout.screenW ∧ y < layout.screenH
  | .clearPx x y => x < layout.screenW ∧ y < layout.screenH
  | .present => True

/-- What holds at reset and is kept by every step. -/
structure State.Inv (s : State) : Prop where
  /-- Memory is in its canonical form. -/
  memory : Memory.wf s.memory = true
  /-- `SP` is even and inside its closed interval (R25). -/
  stack : s.spOk
  /-- The loaded program fits its region (R262). -/
  loaded : s.usedMemoryLen < layout.stackStart - layout.programStart
  /-- Every pixel event is on the screen (R204). -/
  screen : ∀ e ∈ s.events, e.onScreen
  /-- A halted machine stands at the self-jump that halted it (R109). -/
  halted : s.status = .halted → s.atSelfJump
  /-- A faulted machine stands at the instruction that faulted, with the cause its diagnostic names (R232, R233). -/
  faulted : ∀ d, s.status = .faulted d → s.faultCause = some d

/-- A run ends normally in `Halted` (R246). -/
def State.endedNormally (s : State) : Prop := s.status = .halted

/-! ### What an instruction may write -/

/-- The items of State beside the registers, `PC` and memory that an instruction may write. -/
inductive Item where
  | i
  | sp
  | rngSeed
  | events
  | status
  deriving DecidableEq, Repr

/-- `V[0]`..`V[x]`. -/
def regsUpTo (x : Reg) : List Reg := (List.finRange Config.numV).filter (· ≤ x)

/-- The registers an instruction writes (R21, R22). -/
def writesRegs : Instr → List Reg
  | .ldByte x _ | .addByte x _ | .ldReg x _ | .orReg x _ | .andReg x _ | .xorReg x _ | .rnd x _ => [x]
  | .addReg x _ | .subReg x _ | .subnReg x _ | .shr x _ | .shl x _ => [x, VF]
  | .drw _ _ _ => [VF]
  | .loadRegs x => regsUpTo x
  | .cls | .ret | .jp _ | .call _ | .seByte _ _ | .sneByte _ _ | .seReg _ _ | .ldI _ | .addI _ | .storeRegs _ => []

/-- The other items an instruction may write: `I` only `ANNN`, `FX1E` (R24); `SP` only `2NNN`, `00EE` (R25);
`rng_seed` only `CXNN` (R29); events only `00E0`, `DXYN` (R36); the run status only `1NNN` (R109) and the
instructions with a check of their own (R235). -/
def writesItems : Instr → List Item
  | .cls => [.events]
  | .ret | .call _ => [.sp, .status]
  | .jp _ | .storeRegs _ | .loadRegs _ => [.status]
  | .ldI _ | .addI _ => [.i]
  | .rnd _ _ => [.rngSeed]
  | .drw _ _ _ => [.events, .status]
  | .seByte _ _ | .sneByte _ _ | .seReg _ _ | .ldByte _ _ | .addByte _ _ | .ldReg _ _ | .orReg _ _ | .andReg _ _
  | .xorReg _ _ | .addReg _ _ | .subReg _ _ | .shr _ _ | .subnReg _ _ | .shl _ _ => []

/-- The address `a` is one that the instruction stores to in the state `s` (R57, R68). -/
def storesTo (s : State) (a : Nat) : Instr → Prop
  | .cls => layout.fbStart ≤ a ∧ a < layout.fbStart + layout.fbSize
  | .call _ => s.sp.toNat ≤ a + 2 ∧ a < s.sp.toNat
  | .storeRegs x => s.base ≤ a ∧ a ≤ s.base + x.val
  | .drw x y n => ∃ j c, j < spriteRows n (s.readV y) ∧ c < 8 ∧ (s.readV x).toNat + c < layout.screenW ∧
      a = pixelAddr ((s.readV x).toNat + c) ((s.readV y).toNat + j)
  | .ret | .jp _ | .seByte _ _ | .sneByte _ _ | .seReg _ _ | .ldByte _ _ | .addByte _ _ | .ldReg _ _ | .orReg _ _
  | .andReg _ _ | .xorReg _ _ | .addReg _ _ | .subReg _ _ | .shr _ _ | .subnReg _ _ | .shl _ _ | .ldI _ | .rnd _ _
  | .addI _ | .loadRegs _ => False

/-- From `s` to `t` nothing changed but `PC`, the listed registers and items, and the bytes at the stored
addresses. -/
structure State.Frame (s t : State) (regs : List Reg) (items : List Item) (stored : Nat → Prop) : Prop where
  v : ∀ r, r ∉ regs → t.readV r = s.readV r
  i : .i ∉ items → t.i = s.i
  sp : .sp ∉ items → t.sp = s.sp
  rngSeed : .rngSeed ∉ items → t.rngSeed = s.rngSeed
  events : .events ∉ items → t.events = s.events
  status : .status ∉ items → t.status = s.status
  usedMemoryLen : t.usedMemoryLen = s.usedMemoryLen
  memory : ∀ a, ¬ stored a → t.memRead a = s.memRead a

/-- `t` is `s` after an instruction whose whole effect is `V[x] <- b` (and `PC <- pc + 2`). -/
def State.setsReg (s t : State) (x : Reg) (b : Byte) : Prop :=
  t.readV x = b ∧ t.pc = s.pc + 2 ∧ s.Frame t [x] [] (fun _ => False)

/-- The spec's files of instructions. -/
inductive Family where
  /-- 40_engine_and_pc_control.md -/
  | control
  /-- 41_alu.md -/
  | alu
  /-- 42_load_store.md -/
  | loadStore
  /-- 43_sprite_blitter.md -/
  | sprite
  deriving DecidableEq, Repr

/-- The file that specifies an instruction. -/
def familyOf : Instr → Family
  | .ret | .jp _ | .call _ | .seByte _ _ | .sneByte _ _ | .seReg _ _ => .control
  | .ldByte _ _ | .addByte _ _ | .ldReg _ _ | .orReg _ _ | .andReg _ _ | .xorReg _ _ | .addReg _ _ | .subReg _ _
  | .shr _ _ | .subnReg _ _ | .shl _ _ | .rnd _ _ => .alu
  | .ldI _ | .addI _ | .storeRegs _ | .loadRegs _ => .loadStore
  | .cls | .drw _ _ _ => .sprite

/-- A skip instruction whose condition holds (R116 to R118). -/
def skips (s : State) : Instr → Prop
  | .seByte x nn => s.readV x = nn
  | .sneByte x nn => s.readV x ≠ nn
  | .seReg x y => s.readV x = s.readV y
  | .cls | .ret | .jp _ | .call _ | .ldByte _ _ | .addByte _ _ | .ldReg _ _ | .orReg _ _ | .andReg _ _ | .xorReg _ _
  | .addReg _ _ | .subReg _ _ | .shr _ _ | .subnReg _ _ | .shl _ _ | .ldI _ | .rnd _ _ | .drw _ _ _ | .addI _
  | .storeRegs _ | .loadRegs _ => False

/-! ### Drawing -/

/-- Every row the draw reads exists in memory (R203). -/
abbrev State.spriteReadable (s : State) (y : Reg) (n : Nibble) : Prop :=
  spriteRows n (s.readV y) = 0 ∨ s.base + spriteRows n (s.readV y) ≤ Config.memSize

/-- No byte the draw reads as a sprite row is one it writes: the proviso of R210. -/
def State.spriteApart (s : State) (x y : Reg) (n : Nibble) : Prop :=
  ∀ j, j < spriteRows n (s.readV y) → ¬ storesTo s (s.base + j) (.drw x y n)

/-- The sprite has a set bit at the pixel `(px, py)` (R201, R202). -/
def State.spriteCovers (s : State) (x y : Reg) (n : Nibble) (px py : Nat) : Prop :=
  (s.readV x).toNat ≤ px ∧ px < (s.readV x).toNat + 8 ∧ (s.readV y).toNat ≤ py ∧ py < (s.readV y).toNat + n.toNat ∧
    spriteBit (s.memRead (s.base + (py - (s.readV y).toNat))) (px - (s.readV x).toNat) = true

/-- The machine can fetch at `PC`: neither fetch check applies (R102, R103). -/
abbrev State.canFetch (s : State) : Prop :=
  layout.programStart ≤ s.pc.toNat ∧ s.pc.toNat ≤ Config.memSize - 2 ∧ s.pc.toNat % 2 = 0

end Sys2Proof.Machine
end

