-- ==== Sys2Proof/Certificates/Slice0/Obligations.lean ====
section
/-! DEFINITION. The statements for the provers. Each docstring names the rules of spec/ it formalises. -/

open Sys2Proof Sys2Proof.Machine

/-! ### Reset and program load -/

/-- R39, R262: a program that fits gives a machine with exactly these values, one that does not gives none; the
largest that fits has 3231 bytes, and running off the program's end meets the FATAL word 0x0000. -/
def Obligations.BootLoadsProgramAndResetValues : Prop :=
  layout.stackStart - layout.programStart = 3232 ∧ decode 0x0000#16 = .error (.decodeFatal 0x0000#16) ∧
  ∀ (seed : Seed) (p : List Byte),
    (¬ p.length < layout.stackStart - layout.programStart → boot seed p = none) ∧
    (p.length < layout.stackStart - layout.programStart →
      ∃ s, boot seed p = some s ∧ (∀ r, s.readV r = 0) ∧ s.i = 0 ∧ s.sp.toNat = layout.stackEnd ∧
        s.pc.toNat = layout.programStart ∧ s.rngSeed = seed ∧ s.status = .running ∧ s.events = [] ∧
        s.usedMemoryLen = p.length ∧
        (∀ k (h : k < p.length), s.memRead (layout.programStart + k) = p[k]) ∧
        (∀ a, (a < layout.programStart ∨ layout.programStart + p.length ≤ a) → s.memRead a = 0) ∧
        (∀ x y, x < layout.screenW → y < layout.screenH → s.pixel x y = false))

/-- R260: reset gives every item its value, whatever the seed; `State.reset` is such a reset. -/
def Obligations.ResetGivesEveryItemItsValue : Prop :=
  (∃ seed, State.reset = State.resetWith seed) ∧ layout.stackEnd = 0xF00 ∧ layout.programStart = 0x200 ∧
  ∀ seed : Seed, let s := State.resetWith seed
    (∀ r, s.readV r = 0) ∧ s.i = 0 ∧ (∀ a, s.memRead a = 0) ∧ s.sp.toNat = layout.stackEnd ∧
      s.pc.toNat = layout.programStart ∧ s.rngSeed = seed ∧ s.status = .running ∧ s.events = []

/-- R8: the decided layout meets every condition on a layout. -/
def Obligations.LayoutIsOrderedEvenAndFits : Prop :=
  (0 < layout.programStart ∧ layout.programStart < layout.stackStart ∧ layout.stackStart < layout.stackEnd ∧
    layout.stackEnd ≤ layout.fbStart ∧ layout.fbStart + layout.screenH * layout.bytesPerRow ≤ Config.memSize) ∧
  (layout.programStart % 2 = 0 ∧ layout.stackStart % 2 = 0 ∧ layout.stackEnd % 2 = 0) ∧
  ((layout.stackEnd - layout.stackStart) % 2 = 0 ∧ 2 ≤ layout.stackEnd - layout.stackStart) ∧
  layout.screenW ≤ layout.bytesPerRow * 8

/-- R50's table, with the addresses the spec decides (R7, D1 to D3; log entry 4): each address of memory lies
in one region, an address at or above `MEM_SIZE` in none. -/
def Obligations.RegionsPartitionMemory : Prop :=
  ∀ a, (regionOf a = some .reserved ↔ a ≤ 0x1FF) ∧ (regionOf a = some .program ↔ 0x200 ≤ a ∧ a ≤ 0xE9F) ∧
    (regionOf a = some .stack ↔ 0xEA0 ≤ a ∧ a ≤ 0xEFF) ∧
    (regionOf a = some .framebuffer ↔ 0xF00 ≤ a ∧ a ≤ 0xFFF) ∧ (regionOf a = none ↔ 0x1000 ≤ a)

/-! ### Encoding -/

/-- Every instruction, with every operand the encoding admits, is what its own word decodes to. -/
def Obligations.DecodeOfEncodeIsTheInstruction : Prop :=
  ∀ i : Instr, decode (encode i) = .ok i

/-- A word that decodes is the word of its instruction: the decoder drops no bit of it. -/
def Obligations.EncodeOfDecodeIsTheWord : Prop :=
  ∀ (w : Word) (i : Instr), decode w = .ok i → encode i = w

/-- R84, R85, R87 as masks: a word has an instruction exactly when one of the 24 rows covers it, it is then that row's
instruction and no other row covers it, and every other word is rejected with itself. -/
def Obligations.DecodeFollowsTheOpcodeTable : Prop :=
  opcodeRows.length = 24 ∧
  (∀ (w : Word) (i : Instr), decode w = .ok i →
    ∃ row, row ∈ opcodeRows ∧ row.covers w = true ∧ row.mnemonic = i.mnemonic) ∧
  (∀ (w : Word) (row : OpcodeRow), row ∈ opcodeRows → row.covers w = true →
    ∃ i, decode w = .ok i ∧ i.mnemonic = row.mnemonic) ∧
  (∀ w : Word, (∀ row, row ∈ opcodeRows → row.covers w = false) → decode w = .error (.decodeFatal w)) ∧
  (∀ (w : Word) (row row' : OpcodeRow), row ∈ opcodeRows → row' ∈ opcodeRows → row.covers w = true →
    row'.covers w = true → row = row')

/-- R85, R87: the words of the 11 unimplemented standard opcodes are FATAL, but for those of `00E0` and `00EE`. -/
def Obligations.UnimplementedOpcodesAreFatal : Prop :=
  unimplementedRows.length = 11 ∧
  ∀ (w : Word) (row : OpcodeRow), row ∈ unimplementedRows → row.covers w = true → w ≠ 0x00E0#16 → w ≠ 0x00EE#16 →
    decode w = .error (.decodeFatal w)

/-- Words written out bit by bit from R84 and the "Encoding" lines decode to what they stand for: for each operand shape
(none; `nnn`; `x, nn`; `x, y`; `x, y, n`; `x`) at least one. A word outside the table is rejected. -/
def Obligations.WrittenOutWordsDecode : Prop :=
  decode 0b0000000011100000#16 = .ok .cls ∧
  decode 0b0010001100000000#16 = .ok (.call 0x300) ∧
  decode 0b0110101000101111#16 = .ok (.ldByte 10 0x2F) ∧
  decode 0b1000000100100101#16 = .ok (.subReg 1 2) ∧
  decode 0b1000000100100111#16 = .ok (.subnReg 1 2) ∧
  decode 0b1101111100000101#16 = .ok (.drw 15 0 5) ∧
  decode 0b1111001001010101#16 = .ok (.storeRegs 2) ∧
  decode 0b0101000100100001#16 = .error (.decodeFatal 0x5121)

/-! ### The step -/

/-- R100, R104 to R106: a running machine that can fetch runs the instruction that the two bytes at `PC` decode to,
high byte first. -/
def Obligations.StepRunsTheDecodedInstruction : Prop :=
  ∀ (s : State) (i : Instr), s.status = .running → s.canFetch →
    decode (wordOfBytes (s.memRead s.pc.toNat) (s.memRead (s.pc.toNat + 1))) = .ok i → step s = exec i s

/-- R101: a stopped machine never changes again, however many steps are asked for. -/
def Obligations.StoppedMachineNeverChanges : Prop :=
  ∀ (s : State), s.status ≠ .running → ∀ k, Host.Core.run Sys2Proof.core k s = .next s

/-- R102, R103: the fetch checks, range before alignment; the step changes the status alone. -/
def Obligations.FetchChecksFault : Prop :=
  ∀ s : State, s.status = .running →
    ((s.pc.toNat < layout.programStart ∨ s.pc.toNat > Config.memSize - 2) →
      step s = .next { s with status := .faulted (.fetchOutOfRange s.pc) }) ∧
    (layout.programStart ≤ s.pc.toNat → s.pc.toNat ≤ Config.memSize - 2 → s.pc.toNat % 2 = 1 →
      step s = .next { s with status := .faulted (.fetchMisaligned s.pc) })

/-- R87, R106: a word no row of the table covers raises `DecodeFatal` with `pc` and the word, changes nothing else,
and is not skipped. -/
def Obligations.FatalWordStopsTheRun : Prop :=
  ∀ s : State, s.status = .running → s.canFetch →
    let w := wordOfBytes (s.memRead s.pc.toNat) (s.memRead (s.pc.toNat + 1))
    (∀ row, row ∈ opcodeRows → row.covers w = false) →
      step s = .next { s with status := .faulted (.decodeFatal s.pc w) }

/-- R232, R233: a step that faults changes the status alone, and its diagnostic holds the faulting address. -/
def Obligations.FaultsArePrecise : Prop :=
  ∀ (s t : State) (d : Diagnostic), s.status = .running → step s = .next t → t.status = .faulted d →
    t = { s with status := .faulted d } ∧ d.pc = s.pc

/-- Every step answers a next state: no host fault and no refusal (log entry 1). -/
def Obligations.EveryStepAnswersANextState : Prop :=
  (∀ (i : Instr) (s : State), ∃ t, exec i s = .next t) ∧ ∀ s : State, ∃ t, step s = .next t

/-- R235: the first check that applies is the step's only outcome, in the order status, fetch range, fetch alignment,
decode, the instruction's own check, the self-jump halt. `SP` is inside its invariant (R25). -/
def Obligations.ChecksApplyInPriorityOrder : Prop :=
  ∀ s : State, s.spOk →
    (s.status ≠ .running → step s = .next s) ∧
    (s.status = .running → ∃ t, step s = .next t ∧ (∀ d, t.status = .faulted d ↔ s.faultCause = some d) ∧
      (t.status = .halted ↔ s.atSelfJump))

/-- R109, R236: the only halt is a self-jump, and it changes the status alone. -/
def Obligations.OnlyASelfJumpHalts : Prop :=
  ∀ s t : State, s.status = .running → step s = .next t → t.status = .halted →
    s.atSelfJump ∧ t = { s with status := .halted }

/-- R27: where `PC` stands after a step that neither halts nor faults; every value but a popped one is at most
0x1002. -/
def Obligations.PcAfterAStep : Prop :=
  ∀ (s t : State) (i : Instr), s.status = .running → s.canFetch →
    decode (wordOfBytes (s.memRead s.pc.toNat) (s.memRead (s.pc.toNat + 1))) = .ok i →
    step s = .next t → t.status = .running →
      (∀ nnn, i = .jp nnn ∨ i = .call nnn → t.pc.toNat = nnn.toNat) ∧
      (i = .ret → t.pc = wordOfBytes (s.memRead s.sp.toNat) (s.memRead (s.sp.toNat + 1))) ∧
      (skips s i → t.pc.toNat = s.pc.toNat + 4) ∧
      ((∀ nnn, i ≠ .jp nnn ∧ i ≠ .call nnn) → i ≠ .ret → ¬ skips s i → t.pc.toNat = s.pc.toNat + 2) ∧
      (i ≠ .ret → t.pc.toNat ≤ 0x1002)

/-- The invariant of a run, kept by every step from every state that has it. -/
def Obligations.EveryStepKeepsTheInvariant : Prop :=
  ∀ s t : State, s.Inv → step s = .next t → t.Inv

/-- The invariant holds after reset and after a program load, for every seed and program. -/
def Obligations.BootedMachineMeetsTheInvariant : Prop :=
  State.reset.Inv ∧ ∀ (seed : Seed) (p : List Byte) (s : State), boot seed p = some s → s.Inv

/-- R119: a skip moves `PC` past the next word whatever that word is; at 0xFFC and 0xFFE the next step faults. -/
def Obligations.SkipPassesOverTheNextWord : Prop :=
  ∀ (s : State) (i : Instr), skips s i →
    exec i s = .next { s with pc := s.pc + 4 } ∧
    ((s.pc = 0xFFC ∨ s.pc = 0xFFE) → s.status = .running →
      step { s with pc := s.pc + 4 } =
        .next { s with pc := s.pc + 4, status := .faulted (.fetchOutOfRange (s.pc + 4)) })

/-- R66, R266: an `FX55` that stores over the next word is seen by the next fetch. -/
def Obligations.StoredInstructionIsFetchedNext : Prop :=
  ∀ (s : State) (x : Reg) (j : Instr), s.status = .running → Memory.wf s.memory = true → s.canFetch →
    decode (wordOfBytes (s.memRead s.pc.toNat) (s.memRead (s.pc.toNat + 1))) = .ok (.storeRegs x) →
    1 ≤ x.val → s.i.toNat = s.pc.toNat + 2 → s.i.toNat + x.val < Config.memSize →
    decode (wordOfBytes (s.readV 0) (s.readV 1)) = .ok j →
      ∃ t, step s = .next t ∧ t.status = .running ∧ t.pc.toNat = s.pc.toNat + 2 ∧ step t = exec j t

/-- R270: the events a step returns are those it appends to the list. -/
def Obligations.StepReturnsTheEventsItAppends : Prop :=
  ∀ s t : State, step s = .next t → t.events = s.events ++ stepEvents s

/-! ### Frames, by file of the spec -/

/-- Jump, call, return and skips change nothing but `PC`, what R25, R109 and R235 let them change, and the two stack
bytes of a call. -/
def Obligations.ControlInstructionsKeepTheirFrame : Prop :=
  ∀ (i : Instr) (s t : State), familyOf i = .control → exec i s = .next t →
    s.Frame t (writesRegs i) (writesItems i) (fun a => storesTo s a i)

/-- ALU instructions change nothing but `PC`, the registers R21 and R22 name, and, for `CXNN`, `rng_seed`. -/
def Obligations.AluInstructionsKeepTheirFrame : Prop :=
  ∀ (i : Instr) (s t : State), familyOf i = .alu → exec i s = .next t →
    s.Frame t (writesRegs i) (writesItems i) (fun a => storesTo s a i)

/-- `ANNN`, `FX1E`, `FX55` and `FX65` change nothing but `PC`, `I` for the first two, the bytes `I`..`I + x`, and
the registers `V[0]`..`V[x]`. -/
def Obligations.LoadStoreInstructionsKeepTheirFrame : Prop :=
  ∀ (i : Instr) (s t : State), familyOf i = .loadStore → exec i s = .next t →
    s.Frame t (writesRegs i) (writesItems i) (fun a => storesTo s a i)

/-- `00E0` and `DXYN` change nothing but `PC`, the event list, the framebuffer bytes they address, and `VF`. -/
def Obligations.SpriteInstructionsKeepTheirFrame : Prop :=
  ∀ (i : Instr) (s t : State), familyOf i = .sprite → exec i s = .next t →
    s.Frame t (writesRegs i) (writesItems i) (fun a => storesTo s a i)

/-- R29: the generator's state is read and written by `CXNN` alone, which advances it once. -/
def Obligations.OnlyRndReadsOrWritesTheSeed : Prop :=
  (∀ (x : Reg) (nn : Byte) (s t : State), exec (.rnd x nn) s = .next t → t.rngSeed = nextRandom s.rngSeed) ∧
  ∀ (i : Instr) (s t : State) (seed : Seed), (∀ x nn, i ≠ .rnd x nn) → exec i s = .next t →
    t.rngSeed = s.rngSeed ∧ exec i { s with rngSeed := seed } = .next { t with rngSeed := seed }

/-- R38, R32: each instruction appends its events to the list, and reads neither the list nor `used_memory_len`. -/
def Obligations.EventListIsOnlyAppendedTo : Prop :=
  ∀ (i : Instr) (s t : State), exec i s = .next t →
    ∃ es, t.events = s.events ++ es ∧
      ∀ (fs : List DisplayEvent) (len : Nat),
        exec i { s with events := fs, usedMemoryLen := len } = .next { t with events := fs ++ es, usedMemoryLen := len }

/-- R36: `00E0` emits `clear()` and `present()`; a `DXYN` that does not fault emits pixel events and then `present()`
once; no other instruction emits anything. -/
def Obligations.OnlyClsAndDrwEmitEvents : Prop :=
  ∀ (i : Instr) (s t : State), s.status = .running → exec i s = .next t →
    (i = .cls → t.events = s.events ++ [.clear, .present]) ∧
    (∀ x y n, i = .drw x y n → t.status = .running →
      ∃ es, t.events = s.events ++ es ++ [.present] ∧ ∀ e, e ∈ es → e ≠ .present ∧ e ≠ .clear ∧ e.onScreen) ∧
    (i ≠ .cls → (∀ x y n, i ≠ .drw x y n) → t.events = s.events)

/-! ### Program-counter control -/

/-- R108, R109: encoding and effect of `1NNN`; a jump to its own address halts and writes no other state; a target
out of range or odd is caught by the next fetch alone. -/
def Obligations.JumpGoesToItsTargetOrHalts : Prop :=
  ∀ (nnn : Addr12) (s : State), let t := { s with pc := BitVec.ofNat Config.widthPc nnn.toNat }
    decode (BitVec.ofNat 16 (0x1000 + nnn.toNat)) = .ok (.jp nnn) ∧
    (nnn.toNat = s.pc.toNat → exec (.jp nnn) s = .next { s with status := .halted }) ∧
    (nnn.toNat ≠ s.pc.toNat → exec (.jp nnn) s = .next t) ∧
    (s.status = .running → (nnn.toNat < layout.programStart ∨ nnn.toNat = Config.memSize - 1) →
      step t = .next { t with status := .faulted (.fetchOutOfRange t.pc) }) ∧
    (s.status = .running → layout.programStart ≤ nnn.toNat → nnn.toNat < Config.memSize - 1 → nnn.toNat % 2 = 1 →
      step t = .next { t with status := .faulted (.fetchMisaligned t.pc) })

/-- R110 to R112: encoding and effect of `2NNN`, and its overflow check before any write. -/
def Obligations.CallPushesTheReturnAddress : Prop :=
  ∀ (nnn : Addr12) (s : State),
    decode (BitVec.ofNat 16 (0x2000 + nnn.toNat)) = .ok (.call nnn) ∧
    (s.sp.toNat < layout.stackStart + 2 →
      exec (.call nnn) s = .next { s with status := .faulted (.stackOverflow s.pc s.sp) }) ∧
    (Memory.wf s.memory = true → layout.stackStart + 2 ≤ s.sp.toNat → s.sp.toNat ≤ layout.stackEnd →
      ∃ t, exec (.call nnn) s = .next t ∧ t.sp.toNat = s.sp.toNat - 2 ∧ t.pc.toNat = nnn.toNat ∧
        (t.memRead t.sp.toNat).toNat = (s.pc + 2).toNat / 256 ∧
        (t.memRead (t.sp.toNat + 1)).toNat = (s.pc + 2).toNat % 256 ∧
        s.Frame t [] [.sp] (fun a => a = t.sp.toNat ∨ a = t.sp.toNat + 1))

/-- R113 to R115: encoding and effect of `00EE`, and its underflow check before any read. -/
def Obligations.ReturnPopsTheReturnAddress : Prop :=
  decode 0x00EE#16 = .ok .ret ∧
  ∀ s : State,
    (s.sp.toNat + 2 > layout.stackEnd →
      exec .ret s = .next { s with status := .faulted (.stackUnderflow s.pc s.sp) }) ∧
    (s.sp.toNat + 2 ≤ layout.stackEnd →
      ∃ t, exec .ret s = .next t ∧
        t.pc.toNat = (s.memRead s.sp.toNat).toNat * 256 + (s.memRead (s.sp.toNat + 1)).toNat ∧
        t.sp.toNat = s.sp.toNat + 2 ∧ t.memory = s.memory ∧ s.Frame t [] [.sp] (fun _ => False))

/-- L1.3 of 95: a call to a `00EE` that the pushed bytes do not overwrite comes back to the instruction after the
call, with `SP` as before and the return address left in the stack region. -/
def Obligations.CallThenReturnComesBack : Prop :=
  ∀ (s : State) (nnn : Addr12), s.status = .running → Memory.wf s.memory = true → s.canFetch →
    layout.stackStart + 2 ≤ s.sp.toNat → s.sp.toNat ≤ layout.stackEnd →
    decode (wordOfBytes (s.memRead s.pc.toNat) (s.memRead (s.pc.toNat + 1))) = .ok (.call nnn) →
    layout.programStart ≤ nnn.toNat → nnn.toNat ≤ Config.memSize - 2 → nnn.toNat % 2 = 0 →
    (nnn.toNat + 1 < s.sp.toNat - 2 ∨ s.sp.toNat ≤ nnn.toNat) →
    decode (wordOfBytes (s.memRead nnn.toNat) (s.memRead (nnn.toNat + 1))) = .ok .ret →
      ∃ t, Host.Core.run Sys2Proof.core 2 s = .next t ∧ t.pc.toNat = s.pc.toNat + 2 ∧ t.sp = s.sp ∧
        wordOfBytes (t.memRead (s.sp.toNat - 2)) (t.memRead (s.sp.toNat - 1)) = s.pc + 2 ∧
        s.Frame t [] [] (fun a => a = s.sp.toNat - 2 ∨ a = s.sp.toNat - 1)

/-- R116 to R118: encodings and effects of the three skips; a `5XYn` with `n != 0` is FATAL. -/
def Obligations.SkipsCompareAndSkip : Prop :=
  ∀ (x y : Reg) (nn : Byte) (s : State),
    decode (BitVec.ofNat 16 (0x3000 + x.val * 0x100 + nn.toNat)) = .ok (.seByte x nn) ∧
    decode (BitVec.ofNat 16 (0x4000 + x.val * 0x100 + nn.toNat)) = .ok (.sneByte x nn) ∧
    decode (BitVec.ofNat 16 (0x5000 + x.val * 0x100 + y.val * 0x10)) = .ok (.seReg x y) ∧
    (∀ n, 0 < n → n < 16 → ∀ i, decode (BitVec.ofNat 16 (0x5000 + x.val * 0x100 + y.val * 0x10 + n)) ≠ .ok i) ∧
    exec (.seByte x nn) s = .next { s with pc := if s.readV x = nn then s.pc + 4 else s.pc + 2 } ∧
    exec (.sneByte x nn) s = .next { s with pc := if s.readV x ≠ nn then s.pc + 4 else s.pc + 2 } ∧
    exec (.seReg x y) s = .next { s with pc := if s.readV x = s.readV y then s.pc + 4 else s.pc + 2 }

/-! ### ALU -/

/-- R140, R141: encodings and effects of the immediate forms; no flag but as the destination. -/
def Obligations.LoadAndAddImmediate : Prop :=
  ∀ (x : Reg) (nn : Byte) (s : State),
    decode (BitVec.ofNat 16 (0x6000 + x.val * 0x100 + nn.toNat)) = .ok (.ldByte x nn) ∧
    decode (BitVec.ofNat 16 (0x7000 + x.val * 0x100 + nn.toNat)) = .ok (.addByte x nn) ∧
    (∃ t, exec (.ldByte x nn) s = .next t ∧ s.setsReg t x nn) ∧
    (∃ t, exec (.addByte x nn) s = .next t ∧
      s.setsReg t x (BitVec.ofNat 8 (((s.readV x).toNat + nn.toNat) % 256)))

/-- R142 to R145: encodings and effects of assign, OR, AND and XOR; no flag but as the destination. -/
def Obligations.AssignAndLogic : Prop :=
  ∀ (x y : Reg) (s : State),
    decode (BitVec.ofNat 16 (0x8000 + x.val * 0x100 + y.val * 0x10)) = .ok (.ldReg x y) ∧
    decode (BitVec.ofNat 16 (0x8001 + x.val * 0x100 + y.val * 0x10)) = .ok (.orReg x y) ∧
    decode (BitVec.ofNat 16 (0x8002 + x.val * 0x100 + y.val * 0x10)) = .ok (.andReg x y) ∧
    decode (BitVec.ofNat 16 (0x8003 + x.val * 0x100 + y.val * 0x10)) = .ok (.xorReg x y) ∧
    (∃ t, exec (.ldReg x y) s = .next t ∧ s.setsReg t x (s.readV y)) ∧
    (∃ t, exec (.orReg x y) s = .next t ∧ s.setsReg t x (s.readV x ||| s.readV y)) ∧
    (∃ t, exec (.andReg x y) s = .next t ∧ s.setsReg t x (s.readV x &&& s.readV y)) ∧
    (∃ t, exec (.xorReg x y) s = .next t ∧ s.setsReg t x (s.readV x ^^^ s.readV y))

/-- R146: encoding and effect of `8XY4`; with `x = 15` the carry is what `VF` ends with (the spec's setting
`flag_last = true`, U8; log entry 5). -/
def Obligations.AddSetsCarry : Prop :=
  ∀ (x y : Reg) (s : State),
    decode (BitVec.ofNat 16 (0x8004 + x.val * 0x100 + y.val * 0x10)) = .ok (.addReg x y) ∧
    ∃ t, exec (.addReg x y) s = .next t ∧
      (x ≠ VF → (t.readV x).toNat = ((s.readV x).toNat + (s.readV y).toNat) % 256) ∧
      t.readV VF = (if (s.readV x).toNat + (s.readV y).toNat > 255 then 1 else 0) ∧
      t.pc = s.pc + 2 ∧ s.Frame t [x, VF] [] (fun _ => False)

/-- R147, R149: encodings and effects of the two subtractions, whose flag is NOT borrow; with `x = 15` the flag is
what `VF` ends with (`flag_last = true`, U8; log entry 5). The result is the true difference, or 256 more where that is
negative. -/
def Obligations.SubtractionsSetNotBorrow : Prop :=
  ∀ (x y : Reg) (s : State), let a := (s.readV x).toNat; let b := (s.readV y).toNat
    decode (BitVec.ofNat 16 (0x8005 + x.val * 0x100 + y.val * 0x10)) = .ok (.subReg x y) ∧
    decode (BitVec.ofNat 16 (0x8007 + x.val * 0x100 + y.val * 0x10)) = .ok (.subnReg x y) ∧
    (∃ t, exec (.subReg x y) s = .next t ∧
      (x ≠ VF → (t.readV x).toNat = if a ≥ b then a - b else a + 256 - b) ∧
      t.readV VF = (if a ≥ b then 1 else 0) ∧ t.pc = s.pc + 2 ∧ s.Frame t [x, VF] [] (fun _ => False)) ∧
    (∃ t, exec (.subnReg x y) s = .next t ∧
      (x ≠ VF → (t.readV x).toNat = if b ≥ a then b - a else b + 256 - a) ∧
      t.readV VF = (if b ≥ a then 1 else 0) ∧ t.pc = s.pc + 2 ∧ s.Frame t [x, VF] [] (fun _ => False))

/-- R148, R150: encodings and effects of the one-bit shifts; `V[y]` plays no part; with `x = 15` the flag itself is
shifted (the spec's setting `shift_reads_updated = true`, U9; log entry 5). -/
def Obligations.ShiftsMoveTheOuterBitToVF : Prop :=
  ∀ (x y : Reg) (s : State), let a := (s.readV x).toNat
    decode (BitVec.ofNat 16 (0x8006 + x.val * 0x100 + y.val * 0x10)) = .ok (.shr x y) ∧
    decode (BitVec.ofNat 16 (0x800E + x.val * 0x100 + y.val * 0x10)) = .ok (.shl x y) ∧
    (∃ t, exec (.shr x y) s = .next t ∧
      (x ≠ VF → (t.readV x).toNat = a / 2 ∧ (t.readV VF).toNat = a % 2) ∧ (x = VF → t.readV VF = 0) ∧
      t.pc = s.pc + 2 ∧ s.Frame t [x, VF] [] (fun _ => False)) ∧
    (∃ t, exec (.shl x y) s = .next t ∧
      (x ≠ VF → (t.readV x).toNat = a * 2 % 256 ∧ (t.readV VF).toNat = a / 128) ∧
      (x = VF → (t.readV VF).toNat = if a ≥ 128 then 2 else 0) ∧
      t.pc = s.pc + 2 ∧ s.Frame t [x, VF] [] (fun _ => False))

/-- R152 on natural numbers: the three xorshifts, the left ones truncated to 64 bits, the right one logical. -/
def Obligations.GeneratorIsXorshift64 : Prop :=
  ∀ s : Seed,
    let s1 := s.toNat ^^^ (s.toNat * 2 ^ 13 % 2 ^ 64)
    let s2 := s1 ^^^ (s1 / 2 ^ 7)
    (nextRandom s).toNat = s2 ^^^ (s2 * 2 ^ 17 % 2 ^ 64)

/-- R153's fixed point and its first three states from seed 1; and no two states of the generator ever merge, so that
a seed other than 0 never becomes 0. -/
def Obligations.GeneratorNeverMergesStates : Prop :=
  nextRandom 0 = 0 ∧ nextRandom 1 = 0x0000000040822041 ∧ nextRandom 0x0000000040822041 = 0x100041060C011441 ∧
  nextRandom 0x100041060C011441 = 0x9B1E842F6E862629 ∧ Function.Injective nextRandom

/-- R154: encoding and effect of `CXNN`. -/
def Obligations.RndMasksTheNextRandomByte : Prop :=
  ∀ (x : Reg) (nn : Byte) (s : State),
    decode (BitVec.ofNat 16 (0xC000 + x.val * 0x100 + nn.toNat)) = .ok (.rnd x nn) ∧
    ∃ t, exec (.rnd x nn) s = .next t ∧ t.rngSeed = nextRandom s.rngSeed ∧
      (t.readV x).toNat = ((nextRandom s.rngSeed).toNat % 256) &&& nn.toNat ∧
      t.pc = s.pc + 2 ∧ s.Frame t [x] [.rngSeed] (fun _ => False)

/-! ### Address register and load-store -/

/-- R180, R181: encodings and effects of the two writes of `I`; no flag, no fault. -/
def Obligations.AddressRegisterIsSetAndAddedTo : Prop :=
  ∀ (nnn : Addr12) (x : Reg) (s : State),
    decode (BitVec.ofNat 16 (0xA000 + nnn.toNat)) = .ok (.ldI nnn) ∧
    decode (BitVec.ofNat 16 (0xF01E + x.val * 0x100)) = .ok (.addI x) ∧
    (∃ t, exec (.ldI nnn) s = .next t ∧ t.i.toNat = nnn.toNat ∧ t.pc = s.pc + 2 ∧
      s.Frame t [] [.i] (fun _ => False)) ∧
    (∃ t, exec (.addI x) s = .next t ∧ t.i.toNat = (s.i.toNat + (s.readV x).toNat) % 65536 ∧ t.pc = s.pc + 2 ∧
      s.Frame t [] [.i] (fun _ => False))

/-- R182, R184: encoding and effect of `FX55`, and its check before any write. -/
def Obligations.BulkStoreStoresRegisters : Prop :=
  ∀ (x : Reg) (s : State),
    decode (BitVec.ofNat 16 (0xF055 + x.val * 0x100)) = .ok (.storeRegs x) ∧
    (s.i.toNat + x.val ≥ Config.memSize → exec (.storeRegs x) s =
      .next { s with status := .faulted (.memOutOfRange s.pc (max s.i.toNat Config.memSize)) }) ∧
    (Memory.wf s.memory = true → s.i.toNat + x.val < Config.memSize →
      ∃ t, exec (.storeRegs x) s = .next t ∧ (∀ r : Reg, r ≤ x → t.memRead (s.i.toNat + r.val) = s.readV r) ∧
        t.pc = s.pc + 2 ∧ s.Frame t [] [] (fun a => s.i.toNat ≤ a ∧ a ≤ s.i.toNat + x.val))

/-- R183, R184: encoding and effect of `FX65`, and its check before any write. -/
def Obligations.BulkLoadLoadsRegisters : Prop :=
  ∀ (x : Reg) (s : State),
    decode (BitVec.ofNat 16 (0xF065 + x.val * 0x100)) = .ok (.loadRegs x) ∧
    (s.i.toNat + x.val ≥ Config.memSize → exec (.loadRegs x) s =
      .next { s with status := .faulted (.memOutOfRange s.pc (max s.i.toNat Config.memSize)) }) ∧
    (s.i.toNat + x.val < Config.memSize →
      ∃ t, exec (.loadRegs x) s = .next t ∧ (∀ r : Reg, r ≤ x → t.readV r = s.memRead (s.i.toNat + r.val)) ∧
        t.pc = s.pc + 2 ∧ t.memory = s.memory ∧ s.Frame t (regsUpTo x) [] (fun _ => False))

/-- L1.4 of 95: an `FX65` after an `FX55` with the same `I` and `x` restores the registers, whatever happened to
them in between. -/
def Obligations.BulkStoreThenLoadRestores : Prop :=
  ∀ (x : Reg) (s : State) (v' : RegFile) (pc' : ProgCounter), Memory.wf s.memory = true →
    s.i.toNat + x.val < Config.memSize →
      ∃ t u, exec (.storeRegs x) s = .next t ∧ exec (.loadRegs x) { t with v := v', pc := pc' } = .next u ∧
        (∀ r : Reg, r ≤ x → u.readV r = s.readV r) ∧ u.i = s.i

/-- R62, R34: an `FX55` into the framebuffer sets the pixels of the bytes it stores, and emits no event. -/
def Obligations.BulkStoreSetsPixelsSilently : Prop :=
  ∀ (x r : Reg) (s : State) (px py : Nat), Memory.wf s.memory = true → s.i.toNat + x.val < Config.memSize →
    r ≤ x → px < layout.screenW → py < layout.screenH →
    s.i.toNat + r.val = layout.fbStart + py * layout.bytesPerRow + px / 8 →
      ∃ t, exec (.storeRegs x) s = .next t ∧ t.pixel px py = (s.readV r).getLsbD (7 - px % 8) ∧ t.events = s.events

/-! ### Framebuffer and sprites -/

/-- R200: encoding and effect of `00E0`. -/
def Obligations.ClsClearsTheFramebuffer : Prop :=
  decode 0x00E0#16 = .ok .cls ∧
  ∀ s : State, Memory.wf s.memory = true →
    ∃ t, exec .cls s = .next t ∧
      (∀ a, layout.fbStart ≤ a → a < layout.fbStart + layout.fbSize → t.memRead a = 0) ∧
      (∀ px py, px < layout.screenW → py < layout.screenH → t.pixel px py = false) ∧
      t.events = s.events ++ [.clear, .present] ∧ t.pc = s.pc + 2 ∧
      s.Frame t [] [.events] (fun a => layout.fbStart ≤ a ∧ a < layout.fbStart + layout.fbSize)

/-- R203, R204: a `DXYN` whose rows can be read completes, writes bytes of its own pixels alone, all inside the
framebuffer, and leaves 0 or 1 in `VF`; one with a row past memory faults before any effect. -/
def Obligations.DrawCompletesOrFaultsWhole : Prop :=
  ∀ (x y : Reg) (n : Nibble) (s : State),
    decode (BitVec.ofNat 16 (0xD000 + x.val * 0x100 + y.val * 0x10 + n.toNat)) = .ok (.drw x y n) ∧
    (∀ a, storesTo s a (.drw x y n) → layout.fbStart ≤ a ∧ a < layout.fbStart + layout.fbSize) ∧
    (¬ s.spriteReadable y n → exec (.drw x y n) s =
      .next { s with status := .faulted (.memOutOfRange s.pc (max s.i.toNat Config.memSize)) }) ∧
    (s.spriteReadable y n → ∃ t, exec (.drw x y n) s = .next t ∧ t.pc = s.pc + 2 ∧
      (t.readV VF = 0 ∨ t.readV VF = 1) ∧ s.Frame t [VF] [.events] (fun a => storesTo s a (.drw x y n)))

/-- R201, R202, R205: a sprite apart from the bytes it draws on flips exactly the pixels of the screen that its set
bits cover, and `VF` says whether one of them was lit. The coordinates are those before `VF` is reset (R209). -/
def Obligations.DrawFlipsWhatTheSpriteCovers : Prop :=
  ∀ (x y : Reg) (n : Nibble) (s : State), Memory.wf s.memory = true → s.spriteReadable y n → s.spriteApart x y n →
    ∃ t, exec (.drw x y n) s = .next t ∧
      (∀ px py, px < layout.screenW → py < layout.screenH → s.spriteCovers x y n px py →
        t.pixel px py = !s.pixel px py) ∧
      (∀ px py, px < layout.screenW → py < layout.screenH → ¬ s.spriteCovers x y n px py →
        t.pixel px py = s.pixel px py) ∧
      (t.readV VF = 1 ↔
        ∃ px py, px < layout.screenW ∧ py < layout.screenH ∧ s.spriteCovers x y n px py ∧ s.pixel px py = true)

/-- R210, R205: drawing the same sprite twice at the same coordinates restores memory (XOR self-cancels), and the
second draw collides exactly when the first lit a pixel. (R210 quotes the source's "must set `V[0xF]=1` on the second
draw"; by R205 that fails when every covered pixel was lit before the first draw; log entry 13.) The second draw may
start from any state with the memory of the first's end and the same `I` and coordinates. -/
def Obligations.DrawingTwiceRestoresTheScreen : Prop :=
  ∀ (x y : Reg) (n : Nibble) (s t t' : State), Memory.wf s.memory = true → s.spriteReadable y n →
    s.spriteApart x y n → exec (.drw x y n) s = .next t → t'.memory = t.memory → t'.i = s.i →
    t'.readV x = s.readV x → t'.readV y = s.readV y →
      ∃ u, exec (.drw x y n) t' = .next u ∧ (∀ a, u.memRead a = s.memRead a) ∧
        (u.readV VF = 1 ↔
          ∃ px py, px < layout.screenW ∧ py < layout.screenH ∧ s.spriteCovers x y n px py ∧ s.pixel px py = false)

/-- R206: the events of a draw, in row order and left to right, each naming the bit's new value, then one
`present()`. -/
def Obligations.DrawEmitsOneEventPerFlip : Prop :=
  ∀ (x y : Reg) (n : Nibble) (s : State), Memory.wf s.memory = true → s.spriteReadable y n → s.spriteApart x y n →
    let x0 := (s.readV x).toNat
    let y0 := (s.readV y).toNat
    ∃ t, exec (.drw x y n) s = .next t ∧
      t.events = s.events ++
        ((List.range (spriteRows n (s.readV y))).flatMap fun j =>
          ((List.range 8).filter fun c =>
            decide (x0 + c < layout.screenW) && spriteBit (s.memRead (s.i.toNat + j)) c).map fun c =>
              if s.pixel (x0 + c) (y0 + j) then .clearPx (x0 + c) (y0 + j) else .drawPx (x0 + c) (y0 + j)) ++
        [.present]

/-- R208, for every sprite, also one inside the framebuffer: drawing one more row is drawing the rows before it and
then XORing the byte that memory holds THEN. -/
def Obligations.EachRowIsReadWhenItIsDrawn : Prop :=
  ∀ (x y : Reg) (n m : Nibble) (s : State), Memory.wf s.memory = true → m.toNat = n.toNat + 1 →
    (s.readV y).toNat + n.toNat < layout.screenH → s.i.toNat + n.toNat < Config.memSize →
    let x0 := (s.readV x).toNat
    let cy := (s.readV y).toNat + n.toNat
    ∃ t u, exec (.drw x y n) s = .next t ∧ exec (.drw x y m) s = .next u ∧
      (∀ px py, px < layout.screenW → py < layout.screenH → u.pixel px py =
        (t.pixel px py ^^
          decide (py = cy ∧ x0 ≤ px ∧ px < x0 + 8 ∧ spriteBit (t.memRead (s.i.toNat + n.toNat)) (px - x0) = true))) ∧
      (u.readV VF = 1 ↔ t.readV VF = 1 ∨
        ∃ c, c < 8 ∧ x0 + c < layout.screenW ∧ spriteBit (t.memRead (s.i.toNat + n.toNat)) c = true ∧
          t.pixel (x0 + c) cy = true)

/-- R207, R204: a draw of height 0, or wholly off the screen (with its rows readable), resets `VF`, presents once and
does nothing else. -/
def Obligations.EmptyDrawOnlyPresents : Prop :=
  ∀ (x y : Reg) (n : Nibble) (s : State),
    (n = 0 ∨ layout.screenH ≤ (s.readV y).toNat ∨ (layout.screenW ≤ (s.readV x).toNat ∧ s.spriteReadable y n)) →
      ∃ t, exec (.drw x y n) s = .next t ∧ t.readV VF = 0 ∧ t.events = s.events ++ [.present] ∧
        t.memory = s.memory ∧ t.pc = s.pc + 2 ∧ s.Frame t [VF] [.events] (fun _ => False)

/-! ### Memory -/

/-- Two memories in the canonical form that read the same everywhere are the same data. The form is the model's own
(DESIGN CHOICE, log entry 10); no rule of the spec speaks of one. -/
def Obligations.CanonicalMemoriesAreEqualWhenTheyReadEqual : Prop :=
  ∀ m m' : Memory, Memory.wf m = true → Memory.wf m' = true → (∀ a, Memory.read m a = Memory.read m' a) → m = m'
end

