-- ==== Sys2Proof/Laws/Config.lean ====
section
/-! SUPPORT. The parameters of R7 as numbers, and the bounds their types give, in the form `omega` reads. -/

namespace Sys2Proof

theorem numV_eq : Config.numV = 16 := rfl

@[simp] theorem two_pow_widthI : 2 ^ Config.widthI = 65536 := rfl

@[simp] theorem two_pow_widthPc : 2 ^ Config.widthPc = 65536 := rfl

@[simp] theorem two_pow_widthSp : 2 ^ Config.widthSp = 65536 := rfl

@[simp] theorem two_pow_widthSeed : 2 ^ Config.widthSeed = 18446744073709551616 := rfl

theorem reg_lt (r : Reg) : r.val < 16 := r.isLt

theorem addrReg_lt (w : AddrReg) : w.toNat < 65536 := w.isLt

theorem stackPtr_lt (w : StackPtr) : w.toNat < 65536 := w.isLt

theorem progCounter_lt (w : ProgCounter) : w.toNat < 65536 := w.isLt

end Sys2Proof
end

