-- ==== Sys2Proof/Laws/Decode.lean ====
section
/-! SUPPORT. The fields of words put together from nibbles, bytes and 12-bit addresses, and words as numbers. -/

namespace Sys2Proof

@[simp] theorem regOf_regBits (r : Reg) : regOf (regBits r) = r := rfl

@[simp] theorem regBits_regOf (b : Nibble) : regBits (regOf b) = b := rfl

@[simp] theorem regBits_toNat (r : Reg) : (regBits r).toNat = r.val := rfl

@[simp] theorem regOf_val (b : Nibble) : (regOf b).val = b.toNat := rfl

theorem fields_ext {f g : Fields} (h1 : f.op = g.op) (h2 : f.x = g.x) (h3 : f.y = g.y) (h4 : f.n = g.n) : f = g := by
  cases f; cases g; simp_all

/-! ### Concatenations as numbers -/

theorem toNat_append_mul {k l : Nat} (a : BitVec k) (b : BitVec l) : (a ++ b).toNat = a.toNat * 2 ^ l + b.toNat := by
  rw [BitVec.toNat_append, ← Nat.shiftLeft_add_eq_or_of_lt b.isLt, Nat.shiftLeft_eq]

theorem toNat_nibbles (op x y n : Nibble) :
    BitVec.toNat (w := 16) (op ++ x ++ y ++ n) = ((op.toNat * 16 + x.toNat) * 16 + y.toNat) * 16 + n.toNat :=
  (toNat_append_mul (op ++ x ++ y) n).trans (by rw [toNat_append_mul (op ++ x) y, toNat_append_mul op x]; omega)

theorem toNat_opByte (op x : Nibble) (b : Byte) :
    BitVec.toNat (w := 16) (op ++ x ++ b) = (op.toNat * 16 + x.toNat) * 256 + b.toNat :=
  (toNat_append_mul (op ++ x) b).trans (by rw [toNat_append_mul op x]; omega)

theorem toNat_opAddr (op : Nibble) (a : Addr12) :
    BitVec.toNat (w := 16) (op ++ a) = op.toNat * 4096 + a.toNat := toNat_append_mul op a

theorem Fields.toNat_nn (f : Fields) : f.nn.toNat = f.y.toNat * 16 + f.n.toNat := toNat_append_mul f.y f.n

theorem Fields.toNat_nnn (f : Fields) : f.nnn.toNat = (f.x.toNat * 16 + f.y.toNat) * 16 + f.n.toNat := by
  have := toNat_append_mul f.x f.nn
  rw [Fields.toNat_nn] at this
  rw [Fields.nnn]; omega

/-! ### Fields as numbers (R81) -/

theorem fields_op (w : Word) : (fields w).op.toNat = w.toNat / 4096 := by
  have := w.isLt
  simp only [fields, BitVec.extractLsb'_toNat, Nat.shiftRight_eq_div_pow]; omega

theorem fields_x (w : Word) : (fields w).x.toNat = w.toNat / 256 % 16 := by
  simp only [fields, BitVec.extractLsb'_toNat, Nat.shiftRight_eq_div_pow]

theorem fields_y (w : Word) : (fields w).y.toNat = w.toNat / 16 % 16 := by
  simp only [fields, BitVec.extractLsb'_toNat, Nat.shiftRight_eq_div_pow]

theorem fields_n (w : Word) : (fields w).n.toNat = w.toNat % 16 := by
  simp only [fields, BitVec.extractLsb'_toNat, Nat.shiftRight_eq_div_pow]; simp

theorem fields_nn (w : Word) : (fields w).nn.toNat = w.toNat % 256 := by
  rw [Fields.toNat_nn, fields_y, fields_n]; omega

theorem fields_nnn (w : Word) : (fields w).nnn.toNat = w.toNat % 4096 := by
  rw [Fields.toNat_nnn, fields_x, fields_y, fields_n]; omega

/-! ### Fields of concatenations -/

/-- A word of four nibbles has those fields. -/
theorem fields_nibbles (op x y n : Nibble) : fields (op ++ x ++ y ++ n) = { op := op, x := x, y := y, n := n } := by
  have h1 := op.isLt; have h2 := x.isLt; have h3 := y.isLt; have h4 := n.isLt
  apply fields_ext <;> apply BitVec.eq_of_toNat_eq <;>
    simp only [fields_op, fields_x, fields_y, fields_n, toNat_nibbles] <;> omega

/-- The nibbles of a word are its own. -/
theorem nibbles_inj {a b c d a' b' c' d' : Nibble} (h : (a ++ b ++ c ++ d : Word) = (a' ++ b' ++ c' ++ d' : Word)) :
    a = a' ∧ b = b' ∧ c = c' ∧ d = d' := by
  have := congrArg fields h
  rw [fields_nibbles, fields_nibbles] at this
  simpa using this

/-- The high nibble of a byte. -/
def nibbleHi (b : Byte) : Nibble := b.extractLsb' 4 4

/-- The low nibble of a byte. -/
def nibbleLo (b : Byte) : Nibble := b.extractLsb' 0 4

theorem nibbleHi_toNat (b : Byte) : (nibbleHi b).toNat = b.toNat / 16 := by
  have := b.isLt
  simp only [nibbleHi, BitVec.extractLsb'_toNat, Nat.shiftRight_eq_div_pow]; omega

theorem nibbleLo_toNat (b : Byte) : (nibbleLo b).toNat = b.toNat % 16 := by
  simp [nibbleLo, BitVec.extractLsb'_toNat]

/-- The fields of a word with a byte operand. -/
theorem fields_opByte (op x : Nibble) (b : Byte) :
    fields (op ++ x ++ b) = { op := op, x := x, y := nibbleHi b, n := nibbleLo b } := by
  have h1 := op.isLt; have h2 := x.isLt; have h3 := b.isLt
  apply fields_ext <;> apply BitVec.eq_of_toNat_eq <;>
    simp only [fields_op, fields_x, fields_y, fields_n, toNat_opByte, nibbleHi_toNat, nibbleLo_toNat] <;> omega

theorem nn_opByte (op x : Nibble) (b : Byte) : (fields (op ++ x ++ b)).nn = b := by
  have := b.isLt
  apply BitVec.eq_of_toNat_eq
  rw [fields_nn, toNat_opByte]; omega

theorem nnn_opAddr (op : Nibble) (a : Addr12) : (fields (op ++ a)).nnn = a := by
  have := a.isLt
  apply BitVec.eq_of_toNat_eq
  rw [fields_nnn, toNat_opAddr]; omega

theorem op_opAddr (op : Nibble) (a : Addr12) : (fields (op ++ a)).op = op := by
  have := a.isLt; have := op.isLt
  apply BitVec.eq_of_toNat_eq
  rw [fields_op, toNat_opAddr]; omega

/-- Every word is the concatenation of its fields. -/
theorem word_eq_fields (w : Word) : w = (fields w).op ++ (fields w).x ++ (fields w).y ++ (fields w).n := by
  have := w.isLt
  apply BitVec.eq_of_toNat_eq
  rw [toNat_nibbles, fields_op, fields_x, fields_y, fields_n]; omega

/-! ### Words written as numbers -/

theorem ofNat_opAddr (op : Nibble) (a : Addr12) :
    BitVec.ofNat 16 (op.toNat * 0x1000 + a.toNat) = (op ++ a : Word) := by
  have := op.isLt; have := a.isLt
  apply BitVec.eq_of_toNat_eq
  rw [toNat_opAddr, BitVec.toNat_ofNat]; omega

theorem ofNat_opByte (op : Nibble) (x : Reg) (b : Byte) :
    BitVec.ofNat 16 (op.toNat * 0x1000 + x.val * 0x100 + b.toNat) = (op ++ regBits x ++ b : Word) := by
  have := op.isLt; have := reg_lt x; have := b.isLt
  apply BitVec.eq_of_toNat_eq
  rw [toNat_opByte, BitVec.toNat_ofNat, regBits_toNat]; omega

theorem ofNat_nibbles (op : Nibble) (x y : Reg) (n : Nibble) :
    BitVec.ofNat 16 (op.toNat * 0x1000 + x.val * 0x100 + y.val * 0x10 + n.toNat) =
      (op ++ regBits x ++ regBits y ++ n : Word) := by
  have := op.isLt; have := reg_lt x; have := reg_lt y; have := n.isLt
  apply BitVec.eq_of_toNat_eq
  rw [toNat_nibbles, BitVec.toNat_ofNat, regBits_toNat, regBits_toNat]; omega

/-! ### Masks of the opcode table -/

theorem and_F000_opAddr (op : Nibble) (a : Addr12) : (op ++ a : Word) &&& 0xF000#16 = op ++ 0x000#12 := by
  show (op ++ a) &&& (0xF#4 ++ 0x000#12) = _
  rw [BitVec.and_append]
  congr 1
  · exact BitVec.and_allOnes
  · exact BitVec.and_zero

theorem and_F000_opByte (op x : Nibble) (b : Byte) : (op ++ x ++ b : Word) &&& 0xF000#16 = op ++ 0x0#4 ++ 0x00#8 := by
  show (op ++ x ++ b) &&& (0xF#4 ++ 0x0#4 ++ 0x00#8) = _
  rw [BitVec.and_append, BitVec.and_append]
  congr 1
  · congr 1
    · exact BitVec.and_allOnes
    · exact BitVec.and_zero
  · exact BitVec.and_zero

theorem and_F0FF_opByte (op x : Nibble) (b : Byte) : (op ++ x ++ b : Word) &&& 0xF0FF#16 = op ++ 0x0#4 ++ b := by
  show (op ++ x ++ b) &&& (0xF#4 ++ 0x0#4 ++ 0xFF#8) = _
  rw [BitVec.and_append, BitVec.and_append]
  congr 1
  · congr 1
    · exact BitVec.and_allOnes
    · exact BitVec.and_zero
  · exact BitVec.and_allOnes

theorem and_F000_nibbles (op x y n : Nibble) :
    (op ++ x ++ y ++ n : Word) &&& 0xF000#16 = op ++ 0x0#4 ++ 0x0#4 ++ 0x0#4 := by
  show (op ++ x ++ y ++ n : BitVec (4 + 4 + 4 + 4)) &&& (0xF#4 ++ 0x0#4 ++ 0x0#4 ++ 0x0#4 : BitVec (4 + 4 + 4 + 4)) = (_ : BitVec (4 + 4 + 4 + 4))
  rw [BitVec.and_append, BitVec.and_append, BitVec.and_append]
  congr 1
  · congr 1
    · congr 1
      · exact BitVec.and_allOnes
      · exact BitVec.and_zero
    · exact BitVec.and_zero
  · exact BitVec.and_zero

theorem and_F00F_nibbles (op x y n : Nibble) :
    (op ++ x ++ y ++ n : Word) &&& 0xF00F#16 = op ++ 0x0#4 ++ 0x0#4 ++ n := by
  show (op ++ x ++ y ++ n : BitVec (4 + 4 + 4 + 4)) &&& (0xF#4 ++ 0x0#4 ++ 0x0#4 ++ 0xF#4 : BitVec (4 + 4 + 4 + 4)) = (_ : BitVec (4 + 4 + 4 + 4))
  rw [BitVec.and_append, BitVec.and_append, BitVec.and_append]
  congr 1
  · congr 1
    · congr 1
      · exact BitVec.and_allOnes
      · exact BitVec.and_zero
    · exact BitVec.and_zero
  · exact BitVec.and_allOnes

theorem and_F0FF_nibbles (op x y n : Nibble) :
    (op ++ x ++ y ++ n : Word) &&& 0xF0FF#16 = op ++ 0x0#4 ++ y ++ n := by
  show (op ++ x ++ y ++ n : BitVec (4 + 4 + 4 + 4)) &&& (0xF#4 ++ 0x0#4 ++ 0xF#4 ++ 0xF#4 : BitVec (4 + 4 + 4 + 4)) = (_ : BitVec (4 + 4 + 4 + 4))
  rw [BitVec.and_append, BitVec.and_append, BitVec.and_append]
  congr 1
  · congr 1
    · congr 1
      · exact BitVec.and_allOnes
      · exact BitVec.and_zero
    · exact BitVec.and_allOnes
  · exact BitVec.and_allOnes

/-! ### Bytes of words (R55) -/

theorem wordOfBytes_toNat (hi lo : Byte) : (wordOfBytes hi lo).toNat = hi.toNat * 256 + lo.toNat :=
  toNat_append_mul hi lo

theorem highByte_toNat (w : Word) : (highByte w).toNat = w.toNat / 256 := by
  have := w.isLt
  simp only [highByte, BitVec.extractLsb'_toNat, Nat.shiftRight_eq_div_pow]; omega

theorem lowByte_toNat (w : Word) : (lowByte w).toNat = w.toNat % 256 := by
  simp [lowByte, BitVec.extractLsb'_toNat]

/-- Splitting a word and putting it together gives it back. -/
@[simp] theorem wordOfBytes_high_low (w : Word) : wordOfBytes (highByte w) (lowByte w) = w := by
  apply BitVec.eq_of_toNat_eq
  rw [wordOfBytes_toNat, highByte_toNat, lowByte_toNat]; omega

@[simp] theorem highByte_wordOfBytes (hi lo : Byte) : highByte (wordOfBytes hi lo) = hi := by
  have := lo.isLt
  apply BitVec.eq_of_toNat_eq
  rw [highByte_toNat, wordOfBytes_toNat]; omega

@[simp] theorem lowByte_wordOfBytes (hi lo : Byte) : lowByte (wordOfBytes hi lo) = lo := by
  have := lo.isLt
  apply BitVec.eq_of_toNat_eq
  rw [lowByte_toNat, wordOfBytes_toNat]; omega

end Sys2Proof
end

