-- ==== Sys2Proof/Laws/State.lean ====
section
/-! SUPPORT. One lemma per field per update of State, and the reads of registers and memory after an update. -/

namespace Sys2Proof.Machine

section
variable (s : State)

/-! ### `writeV` -/

@[simp] theorem State.writeV_v (r : Reg) (b : Byte) : (s.writeV r b).v = s.v.set r b := rfl
@[simp] theorem State.writeV_i (r : Reg) (b : Byte) : (s.writeV r b).i = s.i := rfl
@[simp] theorem State.writeV_sp (r : Reg) (b : Byte) : (s.writeV r b).sp = s.sp := rfl
@[simp] theorem State.writeV_pc (r : Reg) (b : Byte) : (s.writeV r b).pc = s.pc := rfl
@[simp] theorem State.writeV_memory (r : Reg) (b : Byte) : (s.writeV r b).memory = s.memory := rfl
@[simp] theorem State.writeV_rngSeed (r : Reg) (b : Byte) : (s.writeV r b).rngSeed = s.rngSeed := rfl
@[simp] theorem State.writeV_status (r : Reg) (b : Byte) : (s.writeV r b).status = s.status := rfl
@[simp] theorem State.writeV_events (r : Reg) (b : Byte) : (s.writeV r b).events = s.events := rfl
@[simp] theorem State.writeV_usedMemoryLen (r : Reg) (b : Byte) : (s.writeV r b).usedMemoryLen = s.usedMemoryLen := rfl
@[simp] theorem State.writeV_memRead (r : Reg) (b : Byte) (q : Nat) : (s.writeV r b).memRead q = s.memRead q := rfl
@[simp] theorem State.writeV_memRead2 (r : Reg) (b : Byte) (q : Nat) : (s.writeV r b).memRead2 q = s.memRead2 q := rfl
@[simp] theorem State.writeV_base (r : Reg) (b : Byte) : (s.writeV r b).base = s.base := rfl

/-! ### `memWrite` -/

@[simp] theorem State.memWrite_v (a : Nat) (b : Byte) : (s.memWrite a b).v = s.v := rfl
@[simp] theorem State.memWrite_i (a : Nat) (b : Byte) : (s.memWrite a b).i = s.i := rfl
@[simp] theorem State.memWrite_sp (a : Nat) (b : Byte) : (s.memWrite a b).sp = s.sp := rfl
@[simp] theorem State.memWrite_pc (a : Nat) (b : Byte) : (s.memWrite a b).pc = s.pc := rfl
@[simp] theorem State.memWrite_memory (a : Nat) (b : Byte) : (s.memWrite a b).memory = Memory.write s.memory a b := rfl
@[simp] theorem State.memWrite_rngSeed (a : Nat) (b : Byte) : (s.memWrite a b).rngSeed = s.rngSeed := rfl
@[simp] theorem State.memWrite_status (a : Nat) (b : Byte) : (s.memWrite a b).status = s.status := rfl
@[simp] theorem State.memWrite_events (a : Nat) (b : Byte) : (s.memWrite a b).events = s.events := rfl
@[simp] theorem State.memWrite_usedMemoryLen (a : Nat) (b : Byte) : (s.memWrite a b).usedMemoryLen = s.usedMemoryLen := rfl
@[simp] theorem State.memWrite_readV (a : Nat) (b : Byte) (r : Reg) : (s.memWrite a b).readV r = s.readV r := rfl
@[simp] theorem State.memWrite_base (a : Nat) (b : Byte) : (s.memWrite a b).base = s.base := rfl

/-! ### `emit` -/

@[simp] theorem State.emit_v (e : DisplayEvent) : (s.emit e).v = s.v := rfl
@[simp] theorem State.emit_i (e : DisplayEvent) : (s.emit e).i = s.i := rfl
@[simp] theorem State.emit_sp (e : DisplayEvent) : (s.emit e).sp = s.sp := rfl
@[simp] theorem State.emit_pc (e : DisplayEvent) : (s.emit e).pc = s.pc := rfl
@[simp] theorem State.emit_memory (e : DisplayEvent) : (s.emit e).memory = s.memory := rfl
@[simp] theorem State.emit_rngSeed (e : DisplayEvent) : (s.emit e).rngSeed = s.rngSeed := rfl
@[simp] theorem State.emit_status (e : DisplayEvent) : (s.emit e).status = s.status := rfl
@[simp] theorem State.emit_events (e : DisplayEvent) : (s.emit e).events = s.events ++ [e] := rfl
@[simp] theorem State.emit_usedMemoryLen (e : DisplayEvent) : (s.emit e).usedMemoryLen = s.usedMemoryLen := rfl
@[simp] theorem State.emit_readV (e : DisplayEvent) (r : Reg) : (s.emit e).readV r = s.readV r := rfl
@[simp] theorem State.emit_memRead (e : DisplayEvent) (q : Nat) : (s.emit e).memRead q = s.memRead q := rfl
@[simp] theorem State.emit_memRead2 (e : DisplayEvent) (q : Nat) : (s.emit e).memRead2 q = s.memRead2 q := rfl
@[simp] theorem State.emit_base (e : DisplayEvent) : (s.emit e).base = s.base := rfl

/-! ### `setPc` -/

@[simp] theorem State.setPc_v (w : ProgCounter) : (s.setPc w).v = s.v := rfl
@[simp] theorem State.setPc_i (w : ProgCounter) : (s.setPc w).i = s.i := rfl
@[simp] theorem State.setPc_sp (w : ProgCounter) : (s.setPc w).sp = s.sp := rfl
@[simp] theorem State.setPc_pc (w : ProgCounter) : (s.setPc w).pc = w := rfl
@[simp] theorem State.setPc_memory (w : ProgCounter) : (s.setPc w).memory = s.memory := rfl
@[simp] theorem State.setPc_rngSeed (w : ProgCounter) : (s.setPc w).rngSeed = s.rngSeed := rfl
@[simp] theorem State.setPc_status (w : ProgCounter) : (s.setPc w).status = s.status := rfl
@[simp] theorem State.setPc_events (w : ProgCounter) : (s.setPc w).events = s.events := rfl
@[simp] theorem State.setPc_usedMemoryLen (w : ProgCounter) : (s.setPc w).usedMemoryLen = s.usedMemoryLen := rfl
@[simp] theorem State.setPc_readV (w : ProgCounter) (r : Reg) : (s.setPc w).readV r = s.readV r := rfl
@[simp] theorem State.setPc_memRead (w : ProgCounter) (q : Nat) : (s.setPc w).memRead q = s.memRead q := rfl
@[simp] theorem State.setPc_memRead2 (w : ProgCounter) (q : Nat) : (s.setPc w).memRead2 q = s.memRead2 q := rfl
@[simp] theorem State.setPc_base (w : ProgCounter) : (s.setPc w).base = s.base := rfl

/-! ### `setI` -/

@[simp] theorem State.setI_v (w : AddrReg) : (s.setI w).v = s.v := rfl
@[simp] theorem State.setI_i (w : AddrReg) : (s.setI w).i = w := rfl
@[simp] theorem State.setI_sp (w : AddrReg) : (s.setI w).sp = s.sp := rfl
@[simp] theorem State.setI_pc (w : AddrReg) : (s.setI w).pc = s.pc := rfl
@[simp] theorem State.setI_memory (w : AddrReg) : (s.setI w).memory = s.memory := rfl
@[simp] theorem State.setI_rngSeed (w : AddrReg) : (s.setI w).rngSeed = s.rngSeed := rfl
@[simp] theorem State.setI_status (w : AddrReg) : (s.setI w).status = s.status := rfl
@[simp] theorem State.setI_events (w : AddrReg) : (s.setI w).events = s.events := rfl
@[simp] theorem State.setI_usedMemoryLen (w : AddrReg) : (s.setI w).usedMemoryLen = s.usedMemoryLen := rfl
@[simp] theorem State.setI_readV (w : AddrReg) (r : Reg) : (s.setI w).readV r = s.readV r := rfl
@[simp] theorem State.setI_memRead (w : AddrReg) (q : Nat) : (s.setI w).memRead q = s.memRead q := rfl
@[simp] theorem State.setI_memRead2 (w : AddrReg) (q : Nat) : (s.setI w).memRead2 q = s.memRead2 q := rfl

/-! ### `setSp` -/

@[simp] theorem State.setSp_v (w : StackPtr) : (s.setSp w).v = s.v := rfl
@[simp] theorem State.setSp_i (w : StackPtr) : (s.setSp w).i = s.i := rfl
@[simp] theorem State.setSp_sp (w : StackPtr) : (s.setSp w).sp = w := rfl
@[simp] theorem State.setSp_pc (w : StackPtr) : (s.setSp w).pc = s.pc := rfl
@[simp] theorem State.setSp_memory (w : StackPtr) : (s.setSp w).memory = s.memory := rfl
@[simp] theorem State.setSp_rngSeed (w : StackPtr) : (s.setSp w).rngSeed = s.rngSeed := rfl
@[simp] theorem State.setSp_status (w : StackPtr) : (s.setSp w).status = s.status := rfl
@[simp] theorem State.setSp_events (w : StackPtr) : (s.setSp w).events = s.events := rfl
@[simp] theorem State.setSp_usedMemoryLen (w : StackPtr) : (s.setSp w).usedMemoryLen = s.usedMemoryLen := rfl
@[simp] theorem State.setSp_readV (w : StackPtr) (r : Reg) : (s.setSp w).readV r = s.readV r := rfl
@[simp] theorem State.setSp_memRead (w : StackPtr) (q : Nat) : (s.setSp w).memRead q = s.memRead q := rfl
@[simp] theorem State.setSp_memRead2 (w : StackPtr) (q : Nat) : (s.setSp w).memRead2 q = s.memRead2 q := rfl
@[simp] theorem State.setSp_base (w : StackPtr) : (s.setSp w).base = s.base := rfl

/-! ### `setSeed` -/

@[simp] theorem State.setSeed_v (x : Seed) : (s.setSeed x).v = s.v := rfl
@[simp] theorem State.setSeed_i (x : Seed) : (s.setSeed x).i = s.i := rfl
@[simp] theorem State.setSeed_sp (x : Seed) : (s.setSeed x).sp = s.sp := rfl
@[simp] theorem State.setSeed_pc (x : Seed) : (s.setSeed x).pc = s.pc := rfl
@[simp] theorem State.setSeed_memory (x : Seed) : (s.setSeed x).memory = s.memory := rfl
@[simp] theorem State.setSeed_rngSeed (x : Seed) : (s.setSeed x).rngSeed = x := rfl
@[simp] theorem State.setSeed_status (x : Seed) : (s.setSeed x).status = s.status := rfl
@[simp] theorem State.setSeed_events (x : Seed) : (s.setSeed x).events = s.events := rfl
@[simp] theorem State.setSeed_usedMemoryLen (x : Seed) : (s.setSeed x).usedMemoryLen = s.usedMemoryLen := rfl
@[simp] theorem State.setSeed_readV (x : Seed) (r : Reg) : (s.setSeed x).readV r = s.readV r := rfl
@[simp] theorem State.setSeed_memRead (x : Seed) (q : Nat) : (s.setSeed x).memRead q = s.memRead q := rfl
@[simp] theorem State.setSeed_memRead2 (x : Seed) (q : Nat) : (s.setSeed x).memRead2 q = s.memRead2 q := rfl
@[simp] theorem State.setSeed_base (x : Seed) : (s.setSeed x).base = s.base := rfl

/-! ### `raise` -/

@[simp] theorem State.raise_v (d : Diagnostic) : (s.raise d).v = s.v := rfl
@[simp] theorem State.raise_i (d : Diagnostic) : (s.raise d).i = s.i := rfl
@[simp] theorem State.raise_sp (d : Diagnostic) : (s.raise d).sp = s.sp := rfl
@[simp] theorem State.raise_pc (d : Diagnostic) : (s.raise d).pc = s.pc := rfl
@[simp] theorem State.raise_memory (d : Diagnostic) : (s.raise d).memory = s.memory := rfl
@[simp] theorem State.raise_rngSeed (d : Diagnostic) : (s.raise d).rngSeed = s.rngSeed := rfl
@[simp] theorem State.raise_status (d : Diagnostic) : (s.raise d).status = .faulted d := rfl
@[simp] theorem State.raise_events (d : Diagnostic) : (s.raise d).events = s.events := rfl
@[simp] theorem State.raise_usedMemoryLen (d : Diagnostic) : (s.raise d).usedMemoryLen = s.usedMemoryLen := rfl
@[simp] theorem State.raise_readV (d : Diagnostic) (r : Reg) : (s.raise d).readV r = s.readV r := rfl
@[simp] theorem State.raise_memRead (d : Diagnostic) (q : Nat) : (s.raise d).memRead q = s.memRead q := rfl
@[simp] theorem State.raise_memRead2 (d : Diagnostic) (q : Nat) : (s.raise d).memRead2 q = s.memRead2 q := rfl
@[simp] theorem State.raise_base (d : Diagnostic) : (s.raise d).base = s.base := rfl

/-! ### `halt` -/

@[simp] theorem State.halt_v : s.halt.v = s.v := rfl
@[simp] theorem State.halt_i : s.halt.i = s.i := rfl
@[simp] theorem State.halt_sp : s.halt.sp = s.sp := rfl
@[simp] theorem State.halt_pc : s.halt.pc = s.pc := rfl
@[simp] theorem State.halt_memory : s.halt.memory = s.memory := rfl
@[simp] theorem State.halt_rngSeed : s.halt.rngSeed = s.rngSeed := rfl
@[simp] theorem State.halt_status : s.halt.status = .halted := rfl
@[simp] theorem State.halt_events : s.halt.events = s.events := rfl
@[simp] theorem State.halt_usedMemoryLen : s.halt.usedMemoryLen = s.usedMemoryLen := rfl
@[simp] theorem State.halt_readV (r : Reg) : s.halt.readV r = s.readV r := rfl
@[simp] theorem State.halt_memRead (q : Nat) : s.halt.memRead q = s.memRead q := rfl
@[simp] theorem State.halt_memRead2 (q : Nat) : s.halt.memRead2 q = s.memRead2 q := rfl
@[simp] theorem State.halt_base : s.halt.base = s.base := rfl

/-! ### `advance` and `skipIf` -/

@[simp] theorem State.advance_v : s.advance.v = s.v := rfl
@[simp] theorem State.skipIf_v (c : Bool) : (s.skipIf c).v = s.v := by cases c <;> rfl
@[simp] theorem State.advance_i : s.advance.i = s.i := rfl
@[simp] theorem State.skipIf_i (c : Bool) : (s.skipIf c).i = s.i := by cases c <;> rfl
@[simp] theorem State.advance_sp : s.advance.sp = s.sp := rfl
@[simp] theorem State.skipIf_sp (c : Bool) : (s.skipIf c).sp = s.sp := by cases c <;> rfl
@[simp] theorem State.advance_pc : s.advance.pc = s.pc + 2 := rfl
@[simp] theorem State.skipIf_pc (c : Bool) : (s.skipIf c).pc = if c then s.pc + 4 else s.pc + 2 := by
  cases c <;> rfl
@[simp] theorem State.advance_memory : s.advance.memory = s.memory := rfl
@[simp] theorem State.skipIf_memory (c : Bool) : (s.skipIf c).memory = s.memory := by cases c <;> rfl
@[simp] theorem State.advance_rngSeed : s.advance.rngSeed = s.rngSeed := rfl
@[simp] theorem State.skipIf_rngSeed (c : Bool) : (s.skipIf c).rngSeed = s.rngSeed := by cases c <;> rfl
@[simp] theorem State.advance_status : s.advance.status = s.status := rfl
@[simp] theorem State.skipIf_status (c : Bool) : (s.skipIf c).status = s.status := by cases c <;> rfl
@[simp] theorem State.advance_events : s.advance.events = s.events := rfl
@[simp] theorem State.skipIf_events (c : Bool) : (s.skipIf c).events = s.events := by cases c <;> rfl
@[simp] theorem State.advance_usedMemoryLen : s.advance.usedMemoryLen = s.usedMemoryLen := rfl
@[simp] theorem State.skipIf_usedMemoryLen (c : Bool) : (s.skipIf c).usedMemoryLen = s.usedMemoryLen := by cases c <;> rfl
@[simp] theorem State.advance_readV (r : Reg) : s.advance.readV r = s.readV r := rfl
@[simp] theorem State.skipIf_readV (c : Bool) (r : Reg) : (s.skipIf c).readV r = s.readV r := by cases c <;> rfl
@[simp] theorem State.advance_memRead (q : Nat) : s.advance.memRead q = s.memRead q := rfl
@[simp] theorem State.skipIf_memRead (c : Bool) (q : Nat) : (s.skipIf c).memRead q = s.memRead q := by cases c <;> rfl

/-! ### Registers -/

/-- A register reads what was last written to it, and a write leaves every other register alone. -/
@[simp] theorem State.readV_writeV (r q : Reg) (b : Byte) :
    (s.writeV r b).readV q = if q = r then b else s.readV q := by
  simp [State.readV, State.writeV, Vector.get_eq_getElem, Vector.getElem_set, Fin.ext_iff, eq_comm]

end

/-- Two register files that read the same are the same. -/
theorem State.v_ext {s t : State} (h : ∀ r, s.readV r = t.readV r) : s.v = t.v := by
  apply Vector.ext
  intro k hk
  have := h ⟨k, hk⟩
  simpa [State.readV, Vector.get_eq_getElem] using this

end Sys2Proof.Machine
end

