-- ==== Sys2Proof/Laws/Memory.lean ====
section
/-! SUPPORT. Memory: reads after writes, and the canonical form, which every operation keeps. -/

namespace Sys2Proof.Machine

/-! ### Reads of other addresses, in any memory -/

theorem Memory.read_put_ne (m : Memory) {a q : Nat} (b : Byte) (h : q ≠ a) :
    Memory.read (Memory.put m a b) q = Memory.read m q := by
  induction m with
  | nil => simp only [Memory.put]; split <;> simp [Memory.read, h]
  | cons e m ih =>
    obtain ⟨k, c⟩ := e
    simp only [Memory.put]
    split
    · split <;> simp [Memory.read, h]
    · split
      · subst a; split <;> simp [Memory.read, h]
      · simp [Memory.read, ih]

theorem Memory.read_write_ne (m : Memory) {a q : Nat} (b : Byte) (h : q ≠ a) :
    Memory.read (Memory.write m a b) q = Memory.read m q := by
  unfold Memory.write; split
  · exact Memory.read_put_ne m b h
  · rfl

/-! ### The canonical form -/

theorem Memory.wfFrom_cons {lo k : Nat} {c : Byte} {m : Memory} :
    Memory.wfFrom lo ((k, c) :: m) = true ↔
      lo ≤ k ∧ k < Config.memSize ∧ c ≠ Memory.unlisted ∧ Memory.wfFrom (k + 1) m = true := by
  simp [Memory.wfFrom, and_assoc]

theorem Memory.wfFrom_mono {lo lo' : Nat} {m : Memory} (h : lo' ≤ lo) (hm : Memory.wfFrom lo m = true) :
    Memory.wfFrom lo' m = true := by
  cases m with
  | nil => rfl
  | cons e m =>
    obtain ⟨k, c⟩ := e
    rw [Memory.wfFrom_cons] at hm ⊢
    exact ⟨h.trans hm.1, hm.2⟩

/-- Below its lower bound a canonical memory lists nothing. -/
theorem Memory.read_lt {lo a : Nat} {m : Memory} (hm : Memory.wfFrom lo m = true) (h : a < lo) :
    Memory.read m a = Memory.unlisted := by
  induction m generalizing lo with
  | nil => rfl
  | cons e m ih =>
    obtain ⟨k, c⟩ := e
    rw [Memory.wfFrom_cons] at hm
    rw [Memory.read, if_neg (by omega)]
    exact ih hm.2.2.2 (by omega)

theorem Memory.wfFrom_put {lo a : Nat} {m : Memory} (b : Byte) (hm : Memory.wfFrom lo m = true) (hlo : lo ≤ a)
    (ha : a < Config.memSize) : Memory.wfFrom lo (Memory.put m a b) = true := by
  induction m generalizing lo with
  | nil =>
    simp only [Memory.put]; split
    · rfl
    · rw [Memory.wfFrom_cons]; exact ⟨hlo, ha, ‹_›, rfl⟩
  | cons e m ih =>
    obtain ⟨k, c⟩ := e
    have hm' := hm
    rw [Memory.wfFrom_cons] at hm'
    obtain ⟨h1, h2, h3, h4⟩ := hm'
    simp only [Memory.put]
    split
    · split
      · exact hm
      · rw [Memory.wfFrom_cons, Memory.wfFrom_cons]; exact ⟨hlo, ha, ‹_›, by omega, h2, h3, h4⟩
    · split
      · subst a
        split
        · exact Memory.wfFrom_mono (by omega) h4
        · rw [Memory.wfFrom_cons]; exact ⟨h1, h2, ‹_›, h4⟩
      · rw [Memory.wfFrom_cons]; exact ⟨h1, h2, h3, ih h4 (by omega)⟩

theorem Memory.read_put_self {lo a : Nat} {m : Memory} (b : Byte) (hm : Memory.wfFrom lo m = true) :
    Memory.read (Memory.put m a b) a = b := by
  induction m generalizing lo with
  | nil => simp only [Memory.put]; split <;> simp_all [Memory.read]
  | cons e m ih =>
    obtain ⟨k, c⟩ := e
    have hm' := hm
    rw [Memory.wfFrom_cons] at hm'
    obtain ⟨h1, h2, h3, h4⟩ := hm'
    simp only [Memory.put]
    split
    · split
      · rw [Memory.read, if_neg (by omega), Memory.read_lt h4 (by omega)]; exact (‹b = _›).symm
      · simp [Memory.read]
    · split
      · subst a
        split
        · rw [Memory.read_lt h4 (by omega)]; exact (‹b = _›).symm
        · simp [Memory.read]
      · rw [Memory.read, if_neg ‹_›]; exact ih h4

/-- A write keeps the canonical form. -/
theorem Memory.wf_write {m : Memory} (a : Nat) (b : Byte) (hm : Memory.wf m = true) :
    Memory.wf (Memory.write m a b) = true := by
  unfold Memory.write; split
  · exact Memory.wfFrom_put b hm (Nat.zero_le _) ‹_›
  · exact hm

/-- In a canonical memory an address reads what was written to it. -/
theorem Memory.read_write_self {m : Memory} {a : Nat} (b : Byte) (hm : Memory.wf m = true)
    (ha : a < Config.memSize) : Memory.read (Memory.write m a b) a = b := by
  rw [Memory.write, if_pos ha]; exact Memory.read_put_self b hm

theorem Memory.read_write {m : Memory} {a : Nat} (q : Nat) (b : Byte) (hm : Memory.wf m = true)
    (ha : a < Config.memSize) :
    Memory.read (Memory.write m a b) q = if q = a then b else Memory.read m q := by
  split
  · subst q; exact Memory.read_write_self b hm ha
  · exact Memory.read_write_ne m b ‹_›

theorem Memory.wf_nil : Memory.wf [] = true := rfl

/-! ### Lists of bytes and fills -/

theorem Memory.wf_writeAll {m : Memory} (a : Nat) (bs : List Byte) (hm : Memory.wf m = true) :
    Memory.wf (Memory.writeAll m a bs) = true := by
  induction bs generalizing m a with
  | nil => exact hm
  | cons b bs ih => exact ih (a + 1) (Memory.wf_write a b hm)

theorem Memory.read_writeAll_outside (m : Memory) {a q : Nat} (bs : List Byte)
    (h : q < a ∨ a + bs.length ≤ q) : Memory.read (Memory.writeAll m a bs) q = Memory.read m q := by
  induction bs generalizing m a with
  | nil => rfl
  | cons b bs ih =>
    simp only [List.length_cons] at h
    rw [Memory.writeAll, ih _ (by omega), Memory.read_write_ne _ _ (by omega)]

theorem Memory.read_writeAll {m : Memory} {a : Nat} {bs : List Byte} (hm : Memory.wf m = true)
    (hfit : a + bs.length ≤ Config.memSize) (k : Nat) (hk : k < bs.length) :
    Memory.read (Memory.writeAll m a bs) (a + k) = bs[k] := by
  induction bs generalizing m a k with
  | nil => simp at hk
  | cons b bs ih =>
    simp only [List.length_cons] at hfit hk
    cases k with
    | zero =>
      rw [Memory.writeAll, Memory.read_writeAll_outside _ _ (by omega)]
      exact Memory.read_write_self b hm (by omega)
    | succ k =>
      have := ih (Memory.wf_write a b hm) (a := a + 1) (by omega) k (by omega)
      rw [show a + (k + 1) = a + 1 + k by omega]
      simpa [Memory.writeAll] using this

theorem Memory.wf_fill {m : Memory} (a : Nat) (b : Byte) (k : Nat) (hm : Memory.wf m = true) :
    Memory.wf (Memory.fill m a b k) = true := by
  induction k with
  | zero => exact hm
  | succ k ih => exact Memory.wf_write _ _ ih

/-- A fill changes exactly its own addresses. -/
theorem Memory.read_fill_outside (m : Memory) {a q : Nat} (b : Byte) {k : Nat} (h : q < a ∨ a + k ≤ q) :
    Memory.read (Memory.fill m a b k) q = Memory.read m q := by
  induction k with
  | zero => rfl
  | succ k ih => rw [Memory.fill, Memory.read_write_ne _ _ (by omega), ih (by omega)]

theorem Memory.read_fill_inside {m : Memory} {a q : Nat} (b : Byte) {k : Nat} (hm : Memory.wf m = true)
    (hfit : a + k ≤ Config.memSize) (h : a ≤ q ∧ q < a + k) : Memory.read (Memory.fill m a b k) q = b := by
  induction k with
  | zero => omega
  | succ k ih =>
    rw [Memory.fill, Memory.read_write _ _ (Memory.wf_fill a b k hm) (by omega)]
    split
    · rfl
    · exact ih (by omega) (by omega)

/-! ### State -/

theorem State.memRead_memWrite_ne (s : State) {a q : Nat} (b : Byte) (h : q ≠ a) :
    (s.memWrite a b).memRead q = s.memRead q := Memory.read_write_ne s.memory b h

theorem State.memRead_memWrite {s : State} {a : Nat} (q : Nat) (b : Byte) (hm : Memory.wf s.memory = true)
    (ha : a < Config.memSize) : (s.memWrite a b).memRead q = if q = a then b else s.memRead q :=
  Memory.read_write q b hm ha

theorem State.wf_memWrite {s : State} (a : Nat) (b : Byte) (hm : Memory.wf s.memory = true) :
    Memory.wf (s.memWrite a b).memory = true := Memory.wf_write a b hm

end Sys2Proof.Machine
end

