-- ==== Sys2Proof/Laws/Ops.lean ====
section
/-! SUPPORT. What each shared operation can do: checks, loops, the call stack, bulk transfers, flag writes. -/

namespace Sys2Proof.Machine

/-! ### The decided parameters, as numbers -/

@[simp] theorem layout_programStart : layout.programStart = 0x200 := by decide
@[simp] theorem layout_stackStart : layout.stackStart = 0xEA0 := by decide
@[simp] theorem layout_stackEnd : layout.stackEnd = 0xF00 := by decide
@[simp] theorem layout_fbStart : layout.fbStart = 0xF00 := by decide
@[simp] theorem layout_screenW : layout.screenW = 64 := by decide
@[simp] theorem layout_screenH : layout.screenH = 32 := by decide
@[simp] theorem layout_bytesPerRow : layout.bytesPerRow = 8 := by decide
@[simp] theorem layout_fbSize : layout.fbSize = 256 := by decide
@[simp] theorem memSize_eq : Config.memSize = 4096 := by decide

/-! ### Loops -/

/-- A loop keeps what its body keeps from one index to the next. -/
theorem forUpTo_induct {α : Type} {body : Nat → α → α} {s : α} (P : Nat → α → Prop) (k : Nat) (h0 : P 0 s)
    (hs : ∀ j t, j < k → P j t → P (j + 1) (body j t)) : P k (forUpTo body k s) := by
  induction k with
  | zero => exact h0
  | succ k ih => exact hs k _ (by omega) (ih fun j t hj => hs j t (by omega))

/-! ### Checks -/

/-- A check finds an address exactly when the access passes the end of memory; it is the lowest one (R184). -/
theorem outOfRange_eq_some {base k a : Nat} :
    outOfRange base k = some a ↔ Config.memSize < base + k ∧ a = max base Config.memSize := by
  unfold outOfRange; split <;> simp_all [eq_comm]

theorem outOfRange_eq_none {base k : Nat} : outOfRange base k = none ↔ base + k ≤ Config.memSize := by
  unfold outOfRange; split <;> simp_all

/-- A checked access that fits is its body. -/
theorem State.checked_of_le (s t : State) {base k : Nat} (h : base + k ≤ Config.memSize) : s.checked base k t = t := by
  rw [State.checked, outOfRange_eq_none.mpr h]

/-- A checked access that does not fit raises `MemOutOfRange` and nothing else (R58, R233). -/
theorem State.checked_of_gt (s t : State) {base k : Nat} (h : Config.memSize < base + k) :
    s.checked base k t = s.raise (.memOutOfRange s.pc (max base Config.memSize)) := by
  rw [State.checked, outOfRange_eq_some.mpr ⟨h, rfl⟩]

/-! ### The call stack -/

/-- A push changes `SP` and memory alone. -/
theorem State.push_eq (s : State) (ra : Word) :
    s.push ra = { s with sp := s.sp - 2, memory := (s.push ra).memory } := rfl

@[simp] theorem State.push_sp (s : State) (ra : Word) : (s.push ra).sp = s.sp - 2 := rfl

theorem sp_sub_two {sp : StackPtr} (h : 2 ≤ sp.toNat) : (sp - 2).toNat = sp.toNat - 2 := by
  have := stackPtr_lt sp
  rw [BitVec.toNat_sub, show BitVec.toNat (2 : StackPtr) = 2 from rfl, two_pow_widthSp]; omega

/-- The bytes a push leaves alone (R57). -/
theorem State.push_memRead_outside (s : State) (ra : Word) {q : Nat} (h2 : 2 ≤ s.sp.toNat)
    (h : q < s.sp.toNat - 2 ∨ s.sp.toNat ≤ q) : (s.push ra).memRead q = s.memRead q := by
  have e := sp_sub_two h2
  show ((_ : State).memWrite _ _).memRead q = _
  rw [State.memRead_memWrite_ne, State.memRead_memWrite_ne, State.setSp_memRead] <;>
    simp only [State.setSp_sp, State.memWrite_sp] <;> omega

/-- A push leaves the return address at the new top of the stack, big-endian (R112). -/
theorem State.push_top {s : State} (ra : Word) (hm : Memory.wf s.memory = true) (h2 : 2 ≤ s.sp.toNat)
    (h : s.sp.toNat ≤ Config.memSize) :
    (s.push ra).memRead (s.sp.toNat - 2) = highByte ra ∧ (s.push ra).memRead (s.sp.toNat - 1) = lowByte ra := by
  have e := sp_sub_two h2
  have hm1 : Memory.wf (s.setSp (s.sp - 2)).memory = true := hm
  unfold State.push
  constructor
  · rw [State.memRead_memWrite_ne, State.memRead_memWrite _ _ hm1, if_pos] <;>
      simp only [State.setSp_sp, State.memWrite_sp] <;> omega
  · rw [State.memRead_memWrite _ _ (State.wf_memWrite _ _ hm1), if_pos] <;>
      simp only [State.setSp_sp, State.memWrite_sp] <;> omega

theorem State.wf_push {s : State} (ra : Word) (hm : Memory.wf s.memory = true) :
    Memory.wf (s.push ra).memory = true :=
  State.wf_memWrite _ _ (State.wf_memWrite _ _ (s := s.setSp (s.sp - 2)) hm)

/-! ### Bulk transfers -/

theorem bulkReg_val {k : Nat} (h : k < 16) : (bulkReg k).val = k := by
  simp [bulkReg, Fin.ofNat]; omega

theorem bulkReg_eq (r : Reg) : bulkReg r.val = r := by
  apply Fin.ext; exact bulkReg_val r.isLt

/-- A bulk store changes memory alone (R182: `I` and the registers are unchanged). -/
theorem State.storeRegs_eq (s : State) (k : Nat) :
    s.storeRegs k = { s with memory := (s.storeRegs k).memory } :=
  forUpTo_induct (body := State.storeReg) (fun _ t => t = { s with memory := t.memory }) k rfl
    (fun j t _ h => by rw [h]; rfl)

/-- A bulk store leaves every other byte alone, keeps the canonical form, and stores `V[j]` at `I + j` (R182). -/
theorem State.storeRegs_memRead_outside (s : State) {k q : Nat} (h : q < s.base ∨ s.base + k ≤ q) :
    (s.storeRegs k).memRead q = s.memRead q := by
  refine (forUpTo_induct (body := State.storeReg) (s := s)
    (fun _ t => t.base = s.base ∧ t.memRead q = s.memRead q) k ⟨rfl, rfl⟩ ?_).2
  intro j t hj ⟨hb, hr⟩
  exact ⟨hb, by
    unfold State.storeReg
    rw [State.memRead_memWrite_ne _ _ (by omega), hr]⟩

theorem State.storeRegs_spec {s : State} (k : Nat) (hm : Memory.wf s.memory = true)
    (hfit : s.base + k ≤ Config.memSize) :
    Memory.wf (s.storeRegs k).memory = true ∧
      ∀ j < k, (s.storeRegs k).memRead (s.base + j) = s.readV (bulkReg j) := by
  have := forUpTo_induct (body := State.storeReg) (s := s)
    (fun n t => t.base = s.base ∧ t.v = s.v ∧ Memory.wf t.memory = true ∧
      ∀ j < n, t.memRead (s.base + j) = s.readV (bulkReg j)) k ⟨rfl, rfl, hm, by omega⟩ (by
    intro j t hj ⟨hb, hv, hw, hr⟩
    refine ⟨hb, hv, State.wf_memWrite _ _ hw, ?_⟩
    intro q hq
    rw [State.storeReg, State.memRead_memWrite _ _ hw (by omega), hb]
    split
    · rw [show q = j by omega]; simp [State.readV, hv]
    · exact hr q (by omega))
  exact this.2.2

/-- A bulk load changes the registers alone (R183: `I` and memory are unchanged). -/
theorem State.loadRegs_eq (s : State) (k : Nat) : s.loadRegs k = { s with v := (s.loadRegs k).v } :=
  forUpTo_induct (body := State.loadReg) (fun _ t => t = { s with v := t.v }) k rfl (fun j t _ h => by rw [h]; rfl)

/-- A bulk load gives `V[j]` the byte at `I + j` and leaves the other registers alone (R183). -/
theorem State.loadRegs_readV (s : State) {k : Nat} (hk : k ≤ 16) (r : Reg) :
    (s.loadRegs k).readV r = if r.val < k then s.memRead (s.base + r.val) else s.readV r := by
  refine (forUpTo_induct (body := State.loadReg) (s := s)
    (fun n t => (t.base = s.base ∧ t.memory = s.memory) ∧
      t.readV r = if r.val < n then s.memRead (s.base + r.val) else s.readV r) k ⟨⟨rfl, rfl⟩, by simp⟩ ?_).2
  intro j t hj ⟨⟨hb, hm⟩, hr⟩
  refine ⟨⟨hb, hm⟩, ?_⟩
  have hval := bulkReg_val (k := j) (by omega)
  rw [State.loadReg, State.readV_writeV]
  by_cases h : r = bulkReg j
  · have : r.val = j := by rw [h, hval]
    rw [if_pos h, if_pos (by omega), hb, this]; simp [State.memRead, hm]
  · have : r.val ≠ j := fun e => h (Fin.ext (by rw [hval, e]))
    rw [if_neg h, hr]
    by_cases h2 : r.val < j
    · rw [if_pos h2, if_pos (by omega)]
    · rw [if_neg h2, if_neg (by omega)]

/-! ### Flag writes -/

/-- With the decided switch the flag is the final value of `VF`, also when `VF` is the destination (R157). -/
theorem State.writeWithFlag_readV (s : State) (x r : Reg) (res flag : Byte) :
    (s.writeWithFlag flagLast x res flag).readV r =
      if r = VF then flag else if r = x then res else s.readV r := by
  simp [State.writeWithFlag, flagLast]

/-- Both flag writes change the registers alone. -/
theorem State.writeWithFlag_eq (last : Bool) (s : State) (x : Reg) (res flag : Byte) :
    s.writeWithFlag last x res flag = { s with v := (s.writeWithFlag last x res flag).v } := by
  cases last <;> rfl

/-- With the decided switch the shift reads `V[x]` after the `VF` write (R148, R150). -/
theorem State.shiftWithFlag_readV (s : State) (x r : Reg) (out shift : Byte → Byte) :
    (s.shiftWithFlag shiftReadsUpdated x out shift).readV r =
      if r = x then shift (if x = VF then out (s.readV x) else s.readV x)
      else if r = VF then out (s.readV x) else s.readV r := by
  simp [State.shiftWithFlag, shiftReadsUpdated]

theorem State.shiftWithFlag_eq (upd : Bool) (s : State) (x : Reg) (out shift : Byte → Byte) :
    s.shiftWithFlag upd x out shift = { s with v := (s.shiftWithFlag upd x out shift).v } := rfl

/-! ### Computed values, as numbers -/

theorem sum8_eq (a b : Byte) : sum8 a b = a + b := by
  apply BitVec.eq_of_toNat_eq; simp [sum8, BitVec.toNat_add]

theorem diff8_eq (a b : Byte) : diff8 a b = a - b := by
  have := a.isLt; have := b.isLt
  apply BitVec.eq_of_toNat_eq; rw [BitVec.toNat_sub]; simp only [diff8, BitVec.toNat_ofNat]; omega

theorem zextPc_toNat (nnn : Addr12) : (zextPc nnn).toNat = nnn.toNat := by
  have := nnn.isLt
  simp only [zextPc, BitVec.toNat_setWidth, two_pow_widthPc]; omega

theorem zextI_toNat (nnn : Addr12) : (zextI nnn).toNat = nnn.toNat := by
  have := nnn.isLt
  simp only [zextI, BitVec.toNat_setWidth, two_pow_widthI]; omega

theorem sumI_toNat (a : AddrReg) (b : Byte) : (sumI a b).toNat = (a.toNat + b.toNat) % 65536 := by
  rw [sumI, BitVec.toNat_ofNat, two_pow_widthI]

/-- No step wraps `PC`: a fetch succeeds at 0xFFE or below (R27, R102). -/
theorem pc_add_two {pc : ProgCounter} (h : pc.toNat ≤ 0xFFE) : (pc + 2).toNat = pc.toNat + 2 := by
  rw [BitVec.toNat_add, show BitVec.toNat (2 : ProgCounter) = 2 from rfl, two_pow_widthPc]; omega

theorem pc_add_four {pc : ProgCounter} (h : pc.toNat ≤ 0xFFE) : (pc + 4).toNat = pc.toNat + 4 := by
  rw [BitVec.toNat_add, show BitVec.toNat (4 : ProgCounter) = 4 from rfl, two_pow_widthPc]; omega

end Sys2Proof.Machine
end

