-- ==== Sys2Proof/Laws/PerInstr.lean ====
section
/-! SUPPORT. Statements made for every instruction as syntax, one lemma per constructor. Family `InItsRow`: the
encoded word lies in the row of the opcode table that bears the instruction's mnemonic. -/

namespace Sys2Proof.Laws.InItsRow

/-- The word of `i` is covered by a row of the table, and that row has the mnemonic of `i`. -/
def Statement (i : Instr) : Prop :=
  ∃ row, row ∈ opcodeRows ∧ row.mnemonic = i.mnemonic ∧ row.covers (encode i) = true

/-- A statement about a row by its place in the table. -/
theorem of_row {i : Instr} (k : Nat) (hk : k < opcodeRows.length) (hm : opcodeRows[k].mnemonic = i.mnemonic)
    (hc : encode i &&& opcodeRows[k].mask = opcodeRows[k].pattern) : Statement i :=
  ⟨opcodeRows[k], List.getElem_mem hk, hm, by simpa [OpcodeRow.covers] using hc⟩

theorem cls : Statement .cls := of_row 0 (by decide) rfl rfl

theorem ret : Statement .ret := of_row 1 (by decide) rfl rfl

theorem jp (nnn : Addr12) : Statement (.jp nnn) :=
  of_row 2 (by decide) rfl (and_F000_opAddr _ nnn)

theorem call (nnn : Addr12) : Statement (.call nnn) :=
  of_row 3 (by decide) rfl (and_F000_opAddr _ nnn)

theorem seByte (x : Reg) (nn : Byte) : Statement (.seByte x nn) :=
  of_row 4 (by decide) rfl (and_F000_opByte _ (regBits x) nn)

theorem sneByte (x : Reg) (nn : Byte) : Statement (.sneByte x nn) :=
  of_row 5 (by decide) rfl (and_F000_opByte _ (regBits x) nn)

theorem seReg (x y : Reg) : Statement (.seReg x y) :=
  of_row 6 (by decide) rfl (and_F00F_nibbles _ (regBits x) (regBits y) _)

theorem ldByte (x : Reg) (nn : Byte) : Statement (.ldByte x nn) :=
  of_row 7 (by decide) rfl (and_F000_opByte _ (regBits x) nn)

theorem addByte (x : Reg) (nn : Byte) : Statement (.addByte x nn) :=
  of_row 8 (by decide) rfl (and_F000_opByte _ (regBits x) nn)

theorem ldReg (x y : Reg) : Statement (.ldReg x y) :=
  of_row 9 (by decide) rfl (and_F00F_nibbles _ (regBits x) (regBits y) _)

theorem orReg (x y : Reg) : Statement (.orReg x y) :=
  of_row 10 (by decide) rfl (and_F00F_nibbles _ (regBits x) (regBits y) _)

theorem andReg (x y : Reg) : Statement (.andReg x y) :=
  of_row 11 (by decide) rfl (and_F00F_nibbles _ (regBits x) (regBits y) _)

theorem xorReg (x y : Reg) : Statement (.xorReg x y) :=
  of_row 12 (by decide) rfl (and_F00F_nibbles _ (regBits x) (regBits y) _)

theorem addReg (x y : Reg) : Statement (.addReg x y) :=
  of_row 13 (by decide) rfl (and_F00F_nibbles _ (regBits x) (regBits y) _)

theorem subReg (x y : Reg) : Statement (.subReg x y) :=
  of_row 14 (by decide) rfl (and_F00F_nibbles _ (regBits x) (regBits y) _)

theorem shr (x y : Reg) : Statement (.shr x y) :=
  of_row 15 (by decide) rfl (and_F00F_nibbles _ (regBits x) (regBits y) _)

theorem subnReg (x y : Reg) : Statement (.subnReg x y) :=
  of_row 16 (by decide) rfl (and_F00F_nibbles _ (regBits x) (regBits y) _)

theorem shl (x y : Reg) : Statement (.shl x y) :=
  of_row 17 (by decide) rfl (and_F00F_nibbles _ (regBits x) (regBits y) _)

theorem ldI (nnn : Addr12) : Statement (.ldI nnn) :=
  of_row 18 (by decide) rfl (and_F000_opAddr _ nnn)

theorem rnd (x : Reg) (nn : Byte) : Statement (.rnd x nn) :=
  of_row 19 (by decide) rfl (and_F000_opByte _ (regBits x) nn)

theorem drw (x y : Reg) (n : Nibble) : Statement (.drw x y n) :=
  of_row 20 (by decide) rfl (and_F000_nibbles _ (regBits x) (regBits y) n)

theorem addI (x : Reg) : Statement (.addI x) :=
  of_row 21 (by decide) rfl (and_F0FF_opByte _ (regBits x) _)

theorem storeRegs (x : Reg) : Statement (.storeRegs x) :=
  of_row 22 (by decide) rfl (and_F0FF_opByte _ (regBits x) _)

theorem loadRegs (x : Reg) : Statement (.loadRegs x) :=
  of_row 23 (by decide) rfl (and_F0FF_opByte _ (regBits x) _)

end Sys2Proof.Laws.InItsRow
end

