-- ==== Sys2Proof/Laws/Sprite.lean ====
section
/-! SUPPORT. The pixel mapping (R34), flipping one pixel, one sprite row, and what a whole draw leaves alone. -/

namespace Sys2Proof.Machine

/-! ### The pixel mapping -/

theorem pixelAddr_eq (x y : Nat) : pixelAddr x y = 0xF00 + y * 8 + x / 8 := rfl

/-- A pixel of the screen lies in the framebuffer, inside memory (R204). -/
theorem pixelAddr_range {x y : Nat} (hx : x < 64) (hy : y < 32) :
    0xF00 ≤ pixelAddr x y ∧ pixelAddr x y < 0x1000 := by
  rw [pixelAddr_eq]; omega

theorem pixelBit_lt (x : Nat) : pixelBit x < 8 := by unfold pixelBit; omega

/-- Different pixels of the screen are different bits of memory. -/
theorem pixel_unique {x y x' y' : Nat} (hx : x < 64) (hx' : x' < 64) (ha : pixelAddr x y = pixelAddr x' y')
    (hb : pixelBit x = pixelBit x') : x = x' ∧ y = y' := by
  rw [pixelAddr_eq, pixelAddr_eq] at ha
  unfold pixelBit at hb
  omega

/-- XOR with one bit set flips that bit and no other. -/
theorem getLsbD_xor_bit (b : Byte) {k j : Nat} (hk : k < 8) (hj : j < 8) :
    (b ^^^ (1#8 <<< k)).getLsbD j = (b.getLsbD j ^^ decide (j = k)) := by
  have : (1#8 <<< k).getLsbD j = decide (j = k) := by
    rw [BitVec.getLsbD_shiftLeft]
    by_cases h : j = k
    · subst h; simp [hj]
    · by_cases h2 : j < k
      · simp [h, h2]
      · simp [h, hj, show ¬ j < k from h2, BitVec.getLsbD_one]; omega
  rw [BitVec.getLsbD_xor, this]

/-! ### Flipping one pixel -/

section
variable (cx cy : Nat) (s : State)

/-- The byte that a flip stores. -/
def State.flipped : Byte := s.memRead (pixelAddr cx cy) ^^^ (1#8 <<< pixelBit cx)

/-- Flipping a lit pixel. -/
theorem State.flipPixel_lit (h : s.pixel cx cy = true) :
    s.flipPixel cx cy =
      ((s.writeV VF 1).memWrite (pixelAddr cx cy) (s.flipped cx cy)).emit (.clearPx cx cy) := by
  unfold State.pixel at h
  simp [State.flipPixel, State.flipped, h]

/-- Flipping a dark pixel. -/
theorem State.flipPixel_dark (h : ¬ s.pixel cx cy = true) :
    s.flipPixel cx cy = (s.memWrite (pixelAddr cx cy) (s.flipped cx cy)).emit (.drawPx cx cy) := by
  unfold State.pixel at h
  simp [State.flipPixel, State.flipped, h]

/-- Flipping a pixel changes `VF`, memory and the event list alone. -/
theorem State.flipPixel_eq :
    s.flipPixel cx cy =
      { s with v := (s.flipPixel cx cy).v, memory := (s.flipPixel cx cy).memory,
               events := (s.flipPixel cx cy).events } := by
  by_cases h : s.pixel cx cy = true
  · rw [State.flipPixel_lit _ _ _ h]; rfl
  · rw [State.flipPixel_dark _ _ _ h]; rfl

@[simp] theorem State.flipPixel_base : (s.flipPixel cx cy).base = s.base := by rw [State.flipPixel_eq]; rfl

/-- Flipping a pixel stores one byte. -/
theorem State.flipPixel_memory :
    (s.flipPixel cx cy).memory = Memory.write s.memory (pixelAddr cx cy) (s.flipped cx cy) := by
  by_cases h : s.pixel cx cy = true
  · rw [State.flipPixel_lit _ _ _ h]; rfl
  · rw [State.flipPixel_dark _ _ _ h]; rfl

/-- A lit pixel is a collision; no other register changes (R205). -/
theorem State.flipPixel_readV (r : Reg) :
    (s.flipPixel cx cy).readV r = if r = VF ∧ s.pixel cx cy = true then 1 else s.readV r := by
  by_cases h : s.pixel cx cy = true
  · rw [State.flipPixel_lit _ _ _ h]; simp [h]
  · rw [State.flipPixel_dark _ _ _ h]; simp [h]

/-- The event names the new value of the bit (R206). -/
theorem State.flipPixel_events :
    (s.flipPixel cx cy).events =
      s.events ++ [if s.pixel cx cy then DisplayEvent.clearPx cx cy else DisplayEvent.drawPx cx cy] := by
  by_cases h : s.pixel cx cy = true
  · rw [State.flipPixel_lit _ _ _ h]; simp [h]
  · rw [State.flipPixel_dark _ _ _ h]; simp [h]

theorem State.flipPixel_memRead_ne {q : Nat} (h : q ≠ pixelAddr cx cy) :
    (s.flipPixel cx cy).memRead q = s.memRead q := by
  rw [State.memRead, State.flipPixel_memory, Memory.read_write_ne _ _ h]; rfl

variable {cx cy s}

theorem State.wf_flipPixel (hm : Memory.wf s.memory = true) : Memory.wf (s.flipPixel cx cy).memory = true := by
  rw [State.flipPixel_memory]; exact Memory.wf_write _ _ hm

theorem State.flipPixel_memRead (hm : Memory.wf s.memory = true) (hx : cx < 64) (hy : cy < 32) (q : Nat) :
    (s.flipPixel cx cy).memRead q =
      if q = pixelAddr cx cy then s.memRead q ^^^ (1#8 <<< pixelBit cx) else s.memRead q := by
  rw [State.memRead, State.flipPixel_memory, Memory.read_write _ _ hm (pixelAddr_range hx hy).2]
  split
  · subst q; rfl
  · rfl

/-- Flipping a pixel flips that pixel of the screen and no other (R34, R202). -/
theorem State.flipPixel_pixel (hm : Memory.wf s.memory = true) (hx : cx < 64) (hy : cy < 32) {px : Nat}
    (hpx : px < 64) (py : Nat) :
    (s.flipPixel cx cy).pixel px py = (s.pixel px py ^^ decide (px = cx ∧ py = cy)) := by
  unfold State.pixel
  rw [State.flipPixel_memRead hm hx hy]
  by_cases ha : pixelAddr px py = pixelAddr cx cy
  · rw [if_pos ha, getLsbD_xor_bit _ (pixelBit_lt _) (pixelBit_lt _)]
    congr 1
    by_cases hb : pixelBit px = pixelBit cx
    · have := pixel_unique hpx hx ha hb; simp [this]
    · have : ¬ (px = cx ∧ py = cy) := fun h => hb (by rw [h.1])
      simp [hb, this]
  · have : ¬ (px = cx ∧ py = cy) := fun h => ha (by rw [h.1, h.2])
    simp [ha, this]

end

/-! ### What a draw leaves alone -/

/-- From `s` to `t` nothing changed but `VF`, memory and the event list, which only grew. -/
structure State.DrawKeeps (s t : State) : Prop where
  eq : t = { s with v := t.v, memory := t.memory, events := t.events }
  regs : ∀ r, r ≠ VF → t.readV r = s.readV r
  grows : ∃ es, t.events = s.events ++ es
  wf : Memory.wf s.memory = true → Memory.wf t.memory = true

theorem State.DrawKeeps.refl (s : State) : s.DrawKeeps s := ⟨rfl, fun _ _ => rfl, ⟨[], by simp⟩, id⟩

theorem State.DrawKeeps.trans {s t u : State} (h : s.DrawKeeps t) (k : t.DrawKeeps u) : s.DrawKeeps u := by
  refine ⟨?_, fun r hr => (k.regs r hr).trans (h.regs r hr), ?_, fun hm => k.wf (h.wf hm)⟩
  · rw [k.eq, h.eq]
  · obtain ⟨es, he⟩ := h.grows
    obtain ⟨fs, hf⟩ := k.grows
    exact ⟨es ++ fs, by rw [hf, he, List.append_assoc]⟩

theorem State.flipPixel_keeps (cx cy : Nat) (s : State) : s.DrawKeeps (s.flipPixel cx cy) :=
  ⟨State.flipPixel_eq cx cy s, fun r hr => by simp [State.flipPixel_readV, hr],
   ⟨_, State.flipPixel_events cx cy s⟩, State.wf_flipPixel⟩

theorem State.drawColumn_keeps (sb : Byte) (x0 cy c : Nat) (s : State) : s.DrawKeeps (s.drawColumn sb x0 cy c) := by
  unfold State.drawColumn; split
  · exact State.flipPixel_keeps _ _ s
  · exact .refl s

theorem State.drawRow_keeps (x0 y0 j : Nat) (s : State) : s.DrawKeeps (s.drawRow x0 y0 j) :=
  forUpTo_induct (fun _ t => s.DrawKeeps t) 8 (.refl s) fun _ t _ h => h.trans (State.drawColumn_keeps _ _ _ _ t)

/-- A whole draw changes `VF`, memory and the event list alone (R202). -/
theorem State.drawSprite_keeps (s : State) (x0 y0 rows : Nat) : s.DrawKeeps (s.drawSprite x0 y0 rows) := by
  have h0 : s.DrawKeeps (s.writeV VF 0) := ⟨rfl, fun r hr => by simp [hr], ⟨[], by simp⟩, id⟩
  have h1 : (s.writeV VF 0).DrawKeeps (forUpTo (State.drawRow x0 y0) rows (s.writeV VF 0)) :=
    forUpTo_induct (fun _ t => (s.writeV VF 0).DrawKeeps t) rows (.refl _) fun _ t _ h =>
      h.trans (State.drawRow_keeps _ _ _ t)
  refine (h0.trans h1).trans ⟨rfl, fun _ _ => rfl, ⟨[.present], rfl⟩, id⟩

theorem State.DrawKeeps.base {s t : State} (h : s.DrawKeeps t) : t.base = s.base := by rw [h.eq]; rfl

/-- The bytes a row leaves alone: all but those of its own pixels on the screen (R57, R204). -/
theorem State.drawRow_memRead_outside {x0 y0 j q : Nat} (s : State)
    (h : ∀ c, c < 8 → x0 + c < layout.screenW → q ≠ pixelAddr (x0 + c) (y0 + j)) :
    (s.drawRow x0 y0 j).memRead q = s.memRead q := by
  refine forUpTo_induct (fun _ (t : State) => t.memRead q = s.memRead q) 8 rfl ?_
  intro c t hc ht
  unfold State.drawColumn; split
  · rw [State.flipPixel_memRead_ne _ _ _ (h c hc (by tauto)), ht]
  · exact ht

/-- The bytes a draw leaves alone. -/
theorem State.drawSprite_memRead_outside {x0 y0 rows q : Nat} (s : State)
    (h : ∀ j c, j < rows → c < 8 → x0 + c < layout.screenW → q ≠ pixelAddr (x0 + c) (y0 + j)) :
    (s.drawSprite x0 y0 rows).memRead q = s.memRead q := by
  show (forUpTo (State.drawRow x0 y0) rows (s.writeV VF 0)).memRead q = _
  refine forUpTo_induct (fun _ (t : State) => t.memRead q = s.memRead q) rows rfl ?_
  intro j t hj ht
  rw [State.drawRow_memRead_outside t (fun c hc hx => h j c hj hc hx), ht]

/-! ### One row, pixel by pixel -/

/-- Column `c` of the sprite byte `sb` drawn at `x0` flips a pixel: its bit is set and it is not clipped (R202). -/
def flips (sb : Byte) (x0 c : Nat) : Bool := decide (x0 + c < layout.screenW) && spriteBit sb c

/-- The event of flipping `(x, y)` in the state `s` (R206). -/
def flipEvent (s : State) (x y : Nat) : DisplayEvent := if s.pixel x y then .clearPx x y else .drawPx x y

/-- What the first `k` columns of one row do: each flips its own pixel of row `cy`, a lit one is a collision, and the
events come left to right (R202, R205, R206). -/
theorem State.drawColumns_spec (sb : Byte) {s : State} (x0 cy : Nat) (hm : Memory.wf s.memory = true) (hy : cy < 32)
    (k : Nat) :
    let t := forUpTo (State.drawColumn sb x0 cy) k s
    Memory.wf t.memory = true ∧
    (∀ px py, px < 64 → t.pixel px py =
      (s.pixel px py ^^ decide (py = cy ∧ x0 ≤ px ∧ px < x0 + k ∧ spriteBit sb (px - x0) = true))) ∧
    t.readV VF =
      (if ∃ c, c < k ∧ flips sb x0 c = true ∧ s.pixel (x0 + c) cy = true then 1 else s.readV VF) ∧
    t.events = s.events ++ ((List.range k).filter (flips sb x0)).map (fun c => flipEvent s (x0 + c) cy) := by
  induction k with
  | zero =>
    refine ⟨hm, fun px py _ => ?_, by simp [forUpTo], by simp [forUpTo]⟩
    have : ¬ (py = cy ∧ x0 ≤ px ∧ px < x0 + 0 ∧ spriteBit sb (px - x0) = true) := by omega
    rw [decide_eq_false this]; simp [forUpTo]
  | succ k ih =>
    obtain ⟨hw, hp, hv, he⟩ := ih
    simp only [forUpTo]
    generalize forUpTo (State.drawColumn sb x0 cy) k s = t at hw hp hv he ⊢
    have hlast : x0 + k < 64 → t.pixel (x0 + k) cy = s.pixel (x0 + k) cy := by
      intro h; rw [hp _ _ h]; simp
    have hex : ∀ c, (c < k + 1 ∧ flips sb x0 c = true ∧ s.pixel (x0 + c) cy = true) ↔
        ((c < k ∧ flips sb x0 c = true ∧ s.pixel (x0 + c) cy = true) ∨
          (c = k ∧ flips sb x0 k = true ∧ s.pixel (x0 + k) cy = true)) := by
      intro c; rw [Nat.lt_succ_iff, Nat.le_iff_lt_or_eq]
      constructor
      · rintro ⟨h | rfl, h2⟩ <;> tauto
      · rintro (⟨h, h2⟩ | ⟨rfl, h2⟩) <;> tauto
    by_cases hf : flips sb x0 k = true
    · have hf' := hf
      rw [flips, Bool.and_eq_true, decide_eq_true_eq] at hf'
      obtain ⟨hx, hsb⟩ := hf'
      rw [State.drawColumn, if_pos ⟨hx, hsb⟩]
      refine ⟨State.wf_flipPixel hw, ?_, ?_, ?_⟩
      · intro px py hpx
        rw [State.flipPixel_pixel hw hx hy hpx, hp px py hpx, Bool.xor_assoc]
        congr 1
        by_cases h1 : py = cy ∧ px = x0 + k
        · obtain ⟨rfl, rfl⟩ := h1; simp [hsb]
        · have : ¬ (px = x0 + k ∧ py = cy) := by tauto
          rw [decide_eq_false this, Bool.xor_false]
          congr 1
          apply propext
          constructor <;> rintro ⟨a, b, c, d⟩ <;> refine ⟨a, b, ?_, d⟩ <;> omega
      · rw [State.flipPixel_readV, hlast hx, hv]
        by_cases hpk : s.pixel (x0 + k) cy = true
        · rw [if_pos ⟨rfl, hpk⟩, if_pos ⟨k, by omega, hf, hpk⟩]
        · rw [if_neg (by tauto)]
          congr 1
          apply propext
          constructor <;> rintro ⟨c, hc⟩ <;> refine ⟨c, ?_⟩ <;> have := hex c <;> tauto
      · rw [State.flipPixel_events, he, List.range_succ, List.filter_append, List.map_append, hlast hx]
        simp [hf, flipEvent]
    · have hn : ¬ (x0 + k < layout.screenW ∧ spriteBit sb k = true) := by
        rw [flips, Bool.and_eq_true, decide_eq_true_eq] at hf; exact hf
      rw [State.drawColumn, if_neg hn]
      refine ⟨hw, ?_, ?_, ?_⟩
      · intro px py hpx
        rw [hp px py hpx]
        congr 2
        apply propext
        constructor
        · rintro ⟨a, b, c, d⟩; exact ⟨a, b, by omega, d⟩
        · rintro ⟨a, b, c, d⟩
          refine ⟨a, b, ?_, d⟩
          by_contra h
          have : px = x0 + k := by omega
          subst this
          exact hn ⟨hpx, by simpa using d⟩
      · rw [hv]
        congr 1
        apply propext
        constructor <;> rintro ⟨c, hc⟩ <;> refine ⟨c, ?_⟩ <;> have := hex c <;> tauto
      · rw [he, List.range_succ, List.filter_append, List.map_append]
        simp [hf]

end Sys2Proof.Machine
end

