-- ==== Sys2Proof/Laws/Safety.lean ====
section
/-! SUPPORT. Lemmas about the terms claims use. -/

namespace Sys2Proof.Machine

theorem spriteRows_le (n : Nibble) (y0 : Byte) : spriteRows n y0 ≤ 15 := by
  have := n.isLt
  unfold spriteRows; omega

/-- The rows that are drawn stay on the screen (R204). -/
theorem spriteRows_onScreen {n : Nibble} {y0 : Byte} {j : Nat} (h : j < spriteRows n y0) : y0.toNat + j < 32 := by
  simp only [spriteRows, layout_screenH] at h; omega

/-- A sprite that ends below the framebuffer is apart from what it draws on (R210). -/
theorem State.spriteApart_of_below {s : State} {x y : Reg} {n : Nibble} (h : s.base + 15 ≤ 0xF00) :
    s.spriteApart x y n := by
  rintro j hj ⟨j', c, _, _, _, e⟩
  have := spriteRows_le n (s.readV y)
  rw [pixelAddr_eq] at e
  omega

/-- Every byte a draw stores to is in the framebuffer (R204). -/
theorem storesTo_drw {s : State} {x y : Reg} {n : Nibble} {a : Nat} (h : storesTo s a (.drw x y n)) :
    0xF00 ≤ a ∧ a < 0x1000 := by
  obtain ⟨j, c, hj, _, hx, rfl⟩ := h
  exact pixelAddr_range (by simpa using hx) (spriteRows_onScreen hj)

end Sys2Proof.Machine
end

