-- ==== Sys2Proof/Laws/Step.lean ====
section
/-! SUPPORT. What a step can do: its cases once and for all. -/

namespace Sys2Proof.Machine

/-- The fetch checks pass exactly where the machine can fetch (R102, R103). -/
theorem State.fetchFault_eq_none {s : State} : s.fetchFault = none ↔ s.canFetch := by
  unfold State.fetchFault State.canFetch
  simp only [layout_programStart, memSize_eq]
  by_cases h1 : s.pc.toNat < 0x200 ∨ 4096 < s.pc.toNat + 2
  · rw [if_pos h1]; constructor
    · intro h; cases h
    · omega
  · rw [if_neg h1]
    by_cases h2 : s.pc.toNat % 2 ≠ 0
    · rw [if_pos h2]; constructor
      · intro h; cases h
      · omega
    · rw [if_neg h2]; exact ⟨fun _ => by omega, fun _ => rfl⟩

/-- A step of a running machine. -/
theorem step_of_running {s : State} (h : s.status = .running) :
    step s = match s.fetchFault with
      | some d => .next (s.raise d)
      | none =>
        match decode s.fetch with
        | .ok i => exec i s
        | .error _ => s.rejected := by
  unfold step; rw [h] <;> rfl

/-- A stopped machine's step request returns with no change (R101). -/
theorem step_of_stopped {s : State} (h : s.status ≠ .running) : step s = .next s := by
  unfold step
  cases hs : s.status with
  | running => exact absurd hs h
  | halted => rfl
  | faulted d => rfl

/-- Everything a step that answers a next state can have done. -/
theorem step_cases {s t : State} (h : step s = .next t) :
    (s.status ≠ .running ∧ t = s) ∨
    (s.status = .running ∧ ∃ d, s.fetchFault = some d ∧ t = s.raise d) ∨
    (s.status = .running ∧ s.canFetch ∧ ∃ r, decode s.fetch = .error r ∧ t = s.raise (.decodeFatal s.pc s.fetch)) ∨
    (s.status = .running ∧ s.canFetch ∧ ∃ i, decode s.fetch = .ok i ∧ exec i s = .next t) := by
  by_cases hr : s.status = .running
  · rw [step_of_running hr] at h
    cases hf : s.fetchFault with
    | some d => rw [hf] at h; exact .inr (.inl ⟨hr, d, rfl, by injection h with h; exact h.symm⟩)
    | none =>
      rw [hf] at h
      have hc := State.fetchFault_eq_none.mp hf
      cases hd : decode s.fetch with
      | ok i => rw [hd] at h; exact .inr (.inr (.inr ⟨hr, hc, i, rfl, h⟩))
      | error r =>
        rw [hd] at h
        exact .inr (.inr (.inl ⟨hr, hc, r, rfl, by injection h with h; exact h.symm⟩))
  · rw [step_of_stopped hr] at h
    injection h with h
    exact .inl ⟨hr, h.symm⟩

/-- A rejection names the word it rejects (R87). -/
theorem decode_error {w : Word} {r : Reject} (h : decode w = .error r) : r = .decodeFatal w := by
  unfold decode at h
  split at h
  · cases h
  · injection h with h; exact h.symm

end Sys2Proof.Machine
end

