-- ==== Sys2Proof/Tests/Slice0.lean ====
section
/-! SUPPORT. The model's own tests. Expected results are the spec's: the vectors of 95_test_vectors.md (named in each
docstring), the encodings of R84, and the rules. The last part shows, for each obligation with hypotheses, a state
and operands that meet them. -/

namespace Sys2Proof.Tests

set_option Elab.async false

open Sys2Proof Sys2Proof.Machine

/-! ### Helpers -/

/-- A machine as after reset, but for what is listed. -/
def machine (pc : ProgCounter) (i : AddrReg) (sp : StackPtr) (regs : List (Reg × Byte)) (mem : List Host.Cell) : State :=
  let s : State := { State.reset with pc := pc, i := i, sp := sp }
  let s := regs.foldl (fun s e => s.writeV e.1 e.2) s
  mem.foldl (fun s e => s.memWrite e.1 e.2) s

/-- The word under test at 0x200. -/
def start (w : Nat) (regs : List (Reg × Byte)) (i : AddrReg := 0) (mem : List Host.Cell := []) : State :=
  (machine 0x200 i 0xF00 regs mem).withFetchWord 16 w

/-- The outcome is a next state of which `p` holds. -/
def nextIs (r : Result) (p : State → Bool) : Bool :=
  match r with
  | .next t => p t
  | .fault _ => false
  | .refused _ => false

/-- The state after one step. -/
def after (s : State) : State :=
  match step s with
  | .next t => t
  | .fault _ => s
  | .refused _ => s

/-- One step changes the status to that fault and nothing else (R233). -/
def faultsWith (s : State) (d : Diagnostic) : Bool := nextIs (step s) fun t => t == { s with status := .faulted d }

/-- `V[i] = 0x10 + i`, the registers of the vectors L6 to L11. -/
def counting : List (Reg × Byte) := (List.finRange Config.numV).map fun r => (r, BitVec.ofNat 8 (0x10 + r.val))

/-! ### Well-formedness: each check refuses an ill-formed term -/

theorem test_layout_accepted : layout.wellFormed = true := by decide

theorem test_layout_overlap_refused :
    ({ layout with stackEnd := 0xF02 } : Layout).ordered = false ∧
      ({ layout with stackEnd := 0xF02 } : Layout).wellFormed = false := by decide

theorem test_layout_past_memory_refused :
    ({ layout with fbStart := 0xF01 } : Layout).ordered = false ∧
      ({ layout with fbStart := 0xF01 } : Layout).wellFormed = false := by decide

theorem test_layout_odd_bound_refused :
    ({ layout with programStart := 0x201 } : Layout).evenBounds = false ∧
      ({ layout with programStart := 0x201 } : Layout).wellFormed = false := by decide

theorem test_layout_no_stack_refused :
    ({ layout with stackStart := 0xF00 } : Layout).stackRoom = false ∧
      ({ layout with stackStart := 0xF00 } : Layout).wellFormed = false := by decide

theorem test_layout_wide_screen_refused :
    ({ layout with screenW := 65 } : Layout).rowsFit = false ∧
      ({ layout with screenW := 65 } : Layout).wellFormed = false := by decide

/-- R262: 3231 bytes load, 3232 do not. -/
theorem test_program_fits_at_its_bound :
    layout.programFits (List.replicate 3231 0x60#8) = true ∧
      layout.programFits (List.replicate 3232 0x60#8) = false := by
  simp only [Layout.programFits, List.length_replicate]; decide

/-! ### Decoding: a word written out bit by bit for every constructor (R84, R85) -/

theorem test_decode_cls : decode 0b0000000011100000#16 = .ok .cls := by decide
theorem test_decode_ret : decode 0b0000000011101110#16 = .ok .ret := by decide
theorem test_decode_jp : decode 0b0001001100000001#16 = .ok (.jp 0x301) := by decide
theorem test_decode_call : decode 0b0010111011111110#16 = .ok (.call 0xEFE) := by decide
theorem test_decode_seByte : decode 0b0011000101000010#16 = .ok (.seByte 1 0x42) := by decide
theorem test_decode_sneByte : decode 0b0100111110000001#16 = .ok (.sneByte 15 0x81) := by decide
theorem test_decode_seReg : decode 0b0101000100100000#16 = .ok (.seReg 1 2) := by decide
theorem test_decode_ldByte : decode 0b0110101000101111#16 = .ok (.ldByte 10 0x2F) := by decide
theorem test_decode_addByte : decode 0b0111111100000001#16 = .ok (.addByte 15 0x01) := by decide
theorem test_decode_ldReg : decode 0b1000001110100000#16 = .ok (.ldReg 3 10) := by decide
theorem test_decode_orReg : decode 0b1000000100100001#16 = .ok (.orReg 1 2) := by decide
theorem test_decode_andReg : decode 0b1000000100100010#16 = .ok (.andReg 1 2) := by decide
theorem test_decode_xorReg : decode 0b1000000100100011#16 = .ok (.xorReg 1 2) := by decide
theorem test_decode_addReg : decode 0b1000111100010100#16 = .ok (.addReg 15 1) := by decide
theorem test_decode_subReg : decode 0b1000111100010101#16 = .ok (.subReg 15 1) := by decide
theorem test_decode_shr : decode 0b1000000100100110#16 = .ok (.shr 1 2) := by decide
theorem test_decode_subnReg : decode 0b1000111100010111#16 = .ok (.subnReg 15 1) := by decide
theorem test_decode_shl : decode 0b1000000100101110#16 = .ok (.shl 1 2) := by decide
theorem test_decode_ldI : decode 0b1010001011110000#16 = .ok (.ldI 0x2F0) := by decide
theorem test_decode_rnd : decode 0b1100001100001111#16 = .ok (.rnd 3 0x0F) := by decide
theorem test_decode_drw : decode 0b1101111100000101#16 = .ok (.drw 15 0 5) := by decide
theorem test_decode_addI : decode 0b1111001000011110#16 = .ok (.addI 2) := by decide
theorem test_decode_storeRegs : decode 0b1111111101010101#16 = .ok (.storeRegs 15) := by decide
theorem test_decode_loadRegs : decode 0b1111000101100101#16 = .ok (.loadRegs 1) := by decide

/-- Vectors E1 to E9: ill-formed words are rejected by name. -/
theorem test_fatal_words_rejected :
    ([0x0000#16, 0x0123, 0x00E1, 0x00EF, 0x00FF, 0x5121, 0x9120, 0x8128, 0x812D, 0x812F, 0xB200, 0xE19E, 0xE1A1,
      0xF107, 0xF10A, 0xF115, 0xF118, 0xF129, 0xF133, 0xF100].all
        fun w => decide (decode w = .error (.decodeFatal w))) = true := by decide +kernel

/-- Decoding is total on bytes: too few are rejected, and what follows the word is given back. -/
theorem test_decode_bytes :
    decodeBytes [] = .error .tooShort ∧ decodeBytes [0x60] = .error .tooShort ∧
      decodeBytes [0x60, 0x12, 0x34] = .ok (.ldByte 0 0x12, [0x34]) := by decide

/-- The table's bit 0 is the least significant bit of the word. -/
theorem test_table_word : decodeTableWord 16 0x6A2F = some (.ldByte 10 0x2F) ∧ decodeTableWord 16 0xB200 = none ∧
    (State.reset.withFetchWord 16 0x6A2F).memRead 0x200 = 0x6A ∧
    (State.reset.withFetchWord 16 0x6A2F).memRead 0x201 = 0x2F := by decide

/-- The row and the text of an instruction (R89). -/
theorem test_text : (Instr.drw 10 1 12).text = "DRW VA, V1, 12" ∧ (Instr.jp 0x20A).text = "JP 0x20A" ∧
    (Instr.storeRegs 2).text = "LD [I], V2" := by decide

/-! ### One step -/

/-- P1. -/
theorem test_jp : nextIs (step (start 0x1300 [])) (fun t => t.pc == 0x300 && t.status == .running) = true := by
  decide +kernel

/-- P2, L1.7. -/
theorem test_jp_self_halts :
    nextIs (step (start 0x1200 [])) (fun t => t == { start 0x1200 [] with status := .halted }) = true := by
  decide +kernel

/-- P8. -/
theorem test_call : nextIs (step (start 0x2400 [])) (fun t => t.sp == 0xEFE && t.pc == 0x400 &&
    t.memRead 0xEFE == 0x02 && t.memRead 0xEFF == 0x02) = true := by decide +kernel

/-- The last step of P18. -/
theorem test_call_overflow :
    faultsWith ((machine 0x200 0 0xEA0 [] []).withFetchWord 16 0x2200) (.stackOverflow 0x200 0xEA0) = true := by
  decide +kernel

/-- P10. -/
theorem test_ret :
    nextIs (step ((machine 0x200 0 0xEFE [] [(0xEFE, 0x03)]).withFetchWord 16 0x00EE))
      (fun t => t.pc == 0x300 && t.sp == 0xF00 && t.memRead 0xEFE == 0x03) = true := by decide +kernel

/-- P9. -/
theorem test_ret_underflow : faultsWith (start 0x00EE []) (.stackUnderflow 0x200 0xF00) = true := by decide +kernel

/-- P17: the FATAL word skipped over does no harm. -/
theorem test_seByte_skips :
    nextIs (step (start 0x3142 [(1, 0x42)] 0 [(0x202, 0xFF), (0x203, 0xFF)]))
      (fun t => t.pc == 0x204 && t.status == .running) = true := by decide +kernel

/-- P12. -/
theorem test_seByte_falls_through : nextIs (step (start 0x3142 [(1, 0x41)])) (fun t => t.pc == 0x202) = true := by
  decide +kernel

/-- P13. -/
theorem test_sneByte_falls_through : nextIs (step (start 0x4142 [(1, 0x42)])) (fun t => t.pc == 0x202) = true := by
  decide +kernel

/-- P14. -/
theorem test_sneByte_skips : nextIs (step (start 0x4142 [(1, 0x41)])) (fun t => t.pc == 0x204) = true := by
  decide +kernel

/-- P15. -/
theorem test_seReg_skips : nextIs (step (start 0x5120 [(1, 7), (2, 7)])) (fun t => t.pc == 0x204) = true := by
  decide +kernel

/-- P16. -/
theorem test_seReg_falls_through :
    nextIs (step (start 0x5120 [(1, 7), (2, 8)])) (fun t => t.pc == 0x202) = true := by decide +kernel

/-- A1. -/
theorem test_ldByte : nextIs (step (start 0x6A2F [])) (fun t => t.readV 10 == 0x2F && t.pc == 0x202) = true := by
  decide +kernel

/-- L1.2: the sum wraps, no flag. -/
theorem test_addByte_wraps :
    nextIs (step (start 0x7020 [(0, 0xF0), (15, 0x55)])) (fun t => t.readV 0 == 0x10 && t.readV VF == 0x55) = true := by
  decide +kernel

/-- A3: `VF` as the destination. -/
theorem test_addByte_VF : nextIs (step (start 0x7F01 [(15, 0xFF)])) (fun t => t.readV VF == 0) = true := by
  decide +kernel

/-- A4. -/
theorem test_ldReg : nextIs (step (start 0x8120 [(2, 0x99)])) (fun t => t.readV 1 == 0x99) = true := by decide +kernel

/-- A5. -/
theorem test_orReg : nextIs (step (start 0x8121 [(1, 0x0F), (2, 0xF0)]))
    (fun t => t.readV 1 == 0xFF && t.readV 2 == 0xF0 && t.readV VF == 0) = true := by decide +kernel

/-- A6. -/
theorem test_andReg : nextIs (step (start 0x8122 [(1, 0x3C), (2, 0x0F)])) (fun t => t.readV 1 == 0x0C) = true := by
  decide +kernel

/-- A7. -/
theorem test_xorReg : nextIs (step (start 0x8123 [(1, 0x3C), (2, 0x0F)])) (fun t => t.readV 1 == 0x33) = true := by
  decide +kernel

/-- A8: a source that is also the destination. -/
theorem test_xorReg_same : nextIs (step (start 0x8113 [(1, 0x5A)])) (fun t => t.readV 1 == 0) = true := by
  decide +kernel

/-- A11. -/
theorem test_addReg_carry : nextIs (step (start 0x8124 [(1, 0xFF), (2, 0xFF)]))
    (fun t => t.readV 1 == 0xFE && t.readV VF == 1) = true := by decide +kernel

/-- A14. -/
theorem test_addReg_VF : nextIs (step (start 0x8F14 [(15, 0xFF), (1, 1)])) (fun t => t.readV VF == 1) = true := by
  decide +kernel

/-- A16. -/
theorem test_subReg_borrow : nextIs (step (start 0x8125 [(1, 0x10), (2, 0x20)]))
    (fun t => t.readV 1 == 0xF0 && t.readV VF == 0) = true := by decide +kernel

/-- A17: equal operands do not borrow. -/
theorem test_subReg_equal : nextIs (step (start 0x8125 [(1, 0x20), (2, 0x20)]))
    (fun t => t.readV 1 == 0 && t.readV VF == 1) = true := by decide +kernel

/-- A27: `V[y]` is not read. -/
theorem test_shr : nextIs (step (start 0x8126 [(1, 0x05), (2, 0xFF)]))
    (fun t => t.readV 1 == 0x02 && t.readV VF == 1) = true := by decide +kernel

/-- A28. -/
theorem test_shr_VF : nextIs (step (start 0x8F06 [(15, 0xFF)])) (fun t => t.readV VF == 0) = true := by decide +kernel

/-- A22. -/
theorem test_subnReg_borrow : nextIs (step (start 0x8127 [(1, 0x01), (2, 0x00)]))
    (fun t => t.readV 1 == 0xFF && t.readV VF == 0) = true := by decide +kernel

/-- A23. -/
theorem test_subnReg_VF : nextIs (step (start 0x8F17 [(15, 3), (1, 5)])) (fun t => t.readV VF == 1) = true := by
  decide +kernel

/-- A29. -/
theorem test_shl : nextIs (step (start 0x810E [(1, 0x81)])) (fun t => t.readV 1 == 0x02 && t.readV VF == 1) = true := by
  decide +kernel

/-- A32. -/
theorem test_shl_VF : nextIs (step (start 0x8F0E [(15, 0x80)])) (fun t => t.readV VF == 2) = true := by decide +kernel

/-- The alternative of U8: A14, A19, A20, A23. -/
theorem test_flag_first_alternative :
    (State.reset.writeWithFlag false VF (sum8 0xFF 1) (carry 0xFF 1)).readV VF = 0x00 ∧
      (State.reset.writeWithFlag false VF (diff8 5 3) (notBorrow 5 3)).readV VF = 0x02 ∧
      (State.reset.writeWithFlag false VF (diff8 3 5) (notBorrow 3 5)).readV VF = 0xFE := by decide +kernel

/-- The alternative of U9: A28, A32, A33. -/
theorem test_shift_reads_old_alternative :
    ((State.reset.writeV VF 0xFF).shiftWithFlag false VF lowBit shr1).readV VF = 0x7F ∧
      ((State.reset.writeV VF 0x80).shiftWithFlag false VF highBit shl1).readV VF = 0x00 ∧
      ((State.reset.writeV VF 0x7F).shiftWithFlag false VF highBit shl1).readV VF = 0xFE := by decide +kernel

/-- L1. -/
theorem test_ldI : nextIs (step (start 0xA2F0 [])) (fun t => t.i == 0x2F0) = true := by decide +kernel

/-- N6, L1.8: `VF` as the destination. -/
theorem test_rnd : nextIs (step (start 0xCFFF [])) (fun t => t.readV VF == 0x41 && t.rngSeed == 0x40822041) = true := by
  decide +kernel

/-- N3: a mask of 0 still advances the generator. -/
theorem test_rnd_mask :
    nextIs (step (start 0xC000 [])) (fun t => t.readV 0 == 0 && t.rngSeed == 0x40822041) = true := by decide +kernel

/-- N1: the fourth to sixth states from `SEED = 1`; N5. -/
theorem test_generator : nextRandom 0x9B1E842F6E862629 = 0xF554F503555D8025 ∧
    nextRandom 0xF554F503555D8025 = 0x860C1FB090599265 ∧ nextRandom 0x860C1FB090599265 = 0xF6B05302E5531801 ∧
    nextRandom 0xFFFFFFFFFFFFFFFF = 0x000000003F801FC0 := by decide +kernel

/-- L5: the sum wraps, no flag, `VF` as the operand. -/
theorem test_addI_wraps : nextIs (step (start 0xFF1E [(15, 0x20)] 0xFFF0))
    (fun t => t.i == 0x0010 && t.readV VF == 0x20) = true := by decide +kernel

/-- L4. -/
theorem test_addI_past_memory :
    nextIs (step (start 0xF01E [(0, 1)] 0x0FFF)) (fun t => t.i == 0x1000 && t.status == .running) = true := by
  decide +kernel

/-- L6: the last byte of memory, a framebuffer byte; no event. -/
theorem test_storeRegs_last_byte : nextIs (step (start 0xF055 counting 0xFFF))
    (fun t => t.memRead 0xFFF == 0x10 && t.i == 0xFFF && t.events == []) = true := by decide +kernel

/-- L7: no byte is written. -/
theorem test_storeRegs_faults_whole :
    faultsWith (start 0xF155 counting 0xFFF) (.memOutOfRange 0x200 0x1000) = true := by decide +kernel

/-- L12. -/
theorem test_loadRegs : nextIs (step (start 0xF165 [] 0x300 [(0x300, 0xAA), (0x301, 0xBB)]))
    (fun t => t.readV 0 == 0xAA && t.readV 1 == 0xBB && t.readV 2 == 0 && t.i == 0x300) = true := by decide +kernel

/-- L11: the address does not wrap. -/
theorem test_loadRegs_does_not_wrap :
    faultsWith (start 0xF065 counting 0xFFFF) (.memOutOfRange 0x200 0xFFFF) = true := by decide +kernel

/-- S16. -/
theorem test_cls : nextIs (step (start 0x00E0 [(15, 7)] 0 [(0xEFF, 1), (0xF00, 0x80), (0xFFF, 0x01)]))
    (fun t => t.memRead 0xF00 == 0 && t.memRead 0xFFF == 0 && t.memRead 0xEFF == 1 && t.readV VF == 7 &&
      t.events == [.clear, .present]) = true := by decide +kernel

/-- S2. -/
theorem test_drw_collision : nextIs (step (start 0xD011 [] 0x300 [(0x300, 0xC0), (0xF00, 0x80)]))
    (fun t => t.memRead 0xF00 == 0x40 && t.readV VF == 1 &&
      t.events == [.clearPx 0 0, .drawPx 1 0, .present]) = true := by decide +kernel

/-- S11: the coordinate is the old `VF`. -/
theorem test_drw_VF_coordinate : nextIs (step (start 0xDF05 [(15, 5)] 0x300 [(0x300, 0x80)]))
    (fun t => t.memRead 0xF00 == 0x04 && t.readV VF == 0 && t.events == [.drawPx 5 0, .present]) = true := by
  decide +kernel

/-- S5: columns past the right edge are clipped, not wrapped. -/
theorem test_drw_clips_columns : nextIs (step (start 0xD011 [(0, 60)] 0x300 [(0x300, 0xFF)]))
    (fun t => t.memRead 0xF07 == 0x0F && t.memRead 0xF08 == 0 &&
      t.events == [.drawPx 60 0, .drawPx 61 0, .drawPx 62 0, .drawPx 63 0, .present]) = true := by decide +kernel

/-- S13 and S14: only a row that is read is checked. -/
theorem test_drw_checks_rows_read : faultsWith (start 0xD012 [] 0xFFF [(0xFFF, 0x80)]) (.memOutOfRange 0x200 0x1000) ∧
    nextIs (step (start 0xD012 [(1, 31)] 0xFFF [(0xFFF, 0x80)]))
      (fun t => t.memRead 0xFF8 == 0x80 && t.memRead 0xFFF == 0x80 && t.readV VF == 0 &&
        t.events == [.drawPx 0 31, .present]) = true := by decide +kernel

/-- S17: the sprite lies in the framebuffer it draws on. -/
theorem test_drw_overlap : nextIs (step (start 0xD012 [] 0xF00 [(0xF00, 0x80)]))
    (fun t => t.memRead 0xF00 == 0 && t.readV VF == 1 && t.events == [.clearPx 0 0, .present]) = true := by
  decide +kernel

/-! ### The engine -/

/-- P7's last step, and the priority vectors of 95: range before alignment. -/
theorem test_fetch_range : faultsWith (machine 0x1000 0 0xF00 [] []) (.fetchOutOfRange 0x1000) = true ∧
    faultsWith (machine 0x1001 0 0xF00 [] []) (.fetchOutOfRange 0x1001) = true ∧
    faultsWith (machine 0x1FF 0 0xF00 [] []) (.fetchOutOfRange 0x1FF) = true := by decide +kernel

/-- P4's next step. -/
theorem test_fetch_misaligned : faultsWith (machine 0x201 0 0xF00 [] []) (.fetchMisaligned 0x201) = true := by
  decide +kernel

/-- E1 and E5: a FATAL word is not skipped. -/
theorem test_fatal_word : faultsWith (start 0x0000 []) (.decodeFatal 0x200 0x0000) = true ∧
    faultsWith (start 0x9120 []) (.decodeFatal 0x200 0x9120) = true := by decide +kernel

/-- R101: the step of a halted machine changes nothing. -/
theorem test_halted_stays : nextIs (step { start 0x1300 [] with status := .halted })
    (fun t => t == { start 0x1300 [] with status := .halted }) = true := by decide +kernel

/-- R230: the numeric codes. -/
theorem test_codes : (Diagnostic.decodeFatal 0 0).code = 1 ∧ (Diagnostic.stackOverflow 0 0).code = 2 ∧
    (Diagnostic.stackUnderflow 0 0).code = 3 ∧ (Diagnostic.memOutOfRange 0 0).code = 4 ∧
    (Diagnostic.fetchOutOfRange 0).code = 5 ∧ (Diagnostic.fetchMisaligned 0).code = 6 := by decide +kernel

/-- R262, R270: a load, and the events of one step. -/
theorem test_boot :
    (boot 7 [0xA2, 0x1E]).map (fun s => (s.memRead 0x200, s.memRead 0x201, s.rngSeed, s.usedMemoryLen)) =
      some (0xA2, 0x1E, 7, 2) := by decide +kernel

theorem test_step_events : stepEvents { start 0xD010 [] with events := [.clear] } = [.present] := by decide +kernel

/-- Memory keeps its canonical form: sorted, and a zero byte is not listed. -/
theorem test_memory_canonical :
    Memory.write (Memory.write (Memory.write [] 5 1) 3 2) 5 0 = [(3, 2)] ∧ Memory.write [] 0x1000 1 = [] := by
  decide +kernel

/-! ### Witnesses: for each obligation with hypotheses, a state and operands that meet them together -/

/-- A word at another address than 0x200, `PC` there. -/
def startAt (pc w : Nat) (regs : List (Reg × Byte)) (i : AddrReg := 0) : State :=
  (machine (BitVec.ofNat Config.widthPc pc) i 0xF00 regs []).withFetchWord 16 w

/-- A word at 0x200 with another stack pointer. -/
def startSp (sp : StackPtr) (w : Nat) (mem : List Host.Cell := []) : State :=
  (machine 0x200 0 sp [] mem).withFetchWord 16 w

/-- The word at `PC` (R104). -/
abbrev wordAt (s : State) (a : Nat) : Word := wordOfBytes (s.memRead a) (s.memRead (a + 1))

/-- The machine runs the instruction `i` next. -/
abbrev Runs (s : State) (i : Instr) : Prop :=
  s.status = .running ∧ s.canFetch ∧ decode (wordAt s s.pc.toNat) = .ok i

/-- ... and its step goes on running. -/
abbrev Completes (s : State) (i : Instr) : Prop := Runs s i ∧ nextIs (step s) (fun t => t.status == .running) = true

theorem witness_BootLoadsProgram : ¬ (List.replicate 3232 0#8).length < layout.stackStart - layout.programStart ∧
    (List.replicate 3231 0#8).length < layout.stackStart - layout.programStart := by
  simp only [List.length_replicate]; decide

theorem witness_EncodeOfDecode : decode 0x6A2F = .ok (.ldByte 10 0x2F) := by decide

theorem witness_DecodeFollows_row :
    (⟨"SE_Vx__Vy", 0xF00F, 0x5000⟩ : OpcodeRow) ∈ opcodeRows ∧
      (⟨"SE_Vx__Vy", 0xF00F, 0x5000⟩ : OpcodeRow).covers 0x5120 = true := by decide +kernel

theorem witness_DecodeFollows_none : ∀ row, row ∈ opcodeRows → row.covers 0x5121 = false := by decide +kernel

theorem witness_Unimplemented :
    (⟨"0NNN", 0xF000, 0x0000⟩ : OpcodeRow) ∈ unimplementedRows ∧
      (⟨"0NNN", 0xF000, 0x0000⟩ : OpcodeRow).covers 0x00E1 = true ∧ (0x00E1#16 ≠ 0x00E0#16) ∧
      (0x00E1#16 ≠ 0x00EE#16) := by decide +kernel

theorem witness_StepRuns :
    Runs (start 0x6A2F []) (.ldByte 10 0x2F) ∧ Runs (startAt 0xFFE 0x6A2F []) (.ldByte 10 0x2F) := by decide +kernel

theorem witness_Stopped : ({ State.reset with status := .halted } : State).status ≠ .running ∧
    ({ State.reset with status := .faulted (.fetchOutOfRange 0x100) } : State).status ≠ .running := by decide +kernel

/-- The values at which the clauses meet: 0x1FF and 0xFFF are odd and out of range, 0x201 and 0xFFD odd alone. -/
theorem witness_FetchChecks : State.reset.status = .running ∧ 0x1FF < layout.programStart ∧
    0xFFF > Config.memSize - 2 ∧ (layout.programStart ≤ 0x201 ∧ 0x201 ≤ Config.memSize - 2 ∧ 0x201 % 2 = 1) ∧
    (layout.programStart ≤ 0xFFD ∧ 0xFFD ≤ Config.memSize - 2 ∧ 0xFFD % 2 = 1) := by decide +kernel

theorem witness_FatalWord : (start 0xB200 []).status = .running ∧ (start 0xB200 []).canFetch ∧
    ∀ row, row ∈ opcodeRows → row.covers (wordAt (start 0xB200 []) 0x200) = false := by decide +kernel

theorem witness_FaultsArePrecise : ∃ t d, (start 0xB200 []).status = .running ∧ step (start 0xB200 []) = .next t ∧
    t.status = .faulted d := ⟨_, _, rfl, rfl, rfl⟩

theorem witness_ChecksApply : (startSp 0xEA0 0x2200).spOk ∧ (startSp 0xF00 0x00EE).spOk ∧
    (startSp 0xEA0 0x2200).status = .running ∧
    ({ startSp 0xF00 0x1200 with status := .halted } : State).spOk := by decide +kernel

theorem witness_OnlyASelfJumpHalts : ∃ t, (start 0x1200 []).status = .running ∧ step (start 0x1200 []) = .next t ∧
    t.status = .halted := ⟨_, rfl, rfl, rfl⟩

/-- One state for each clause, the sequential one and the skip also at the top of memory. -/
theorem witness_PcAfterAStep : Completes (start 0x1300 []) (.jp 0x300) ∧ Completes (start 0x2400 []) (.call 0x400) ∧
    Completes (startSp 0xEFE 0x00EE) .ret ∧ Completes (startAt 0xFFE 0x3000 []) (.seByte 0 0) ∧
    Completes (startAt 0xFFE 0x6001 []) (.ldByte 0 1) := by decide +kernel

theorem witness_EveryStepKeepsTheInvariant : (start 0x1300 []).Inv ∧ ∃ t, step (start 0x1300 []) = .next t :=
  ⟨⟨by decide +kernel, by decide +kernel, by decide +kernel, (fun _ h => by cases h), (fun h => by cases h),
    (fun _ h => by cases h)⟩, _, rfl⟩

theorem witness_BootedMachine : ∃ s, boot 1 [0x12, 0x00] = some s := ⟨_, rfl⟩

theorem witness_Skip : skips (startAt 0xFFC 0x3000 []) (.seByte 0 0) ∧
    skips (startAt 0xFFE 0x4001 []) (.sneByte 0 1) ∧ skips (startAt 0xFFE 0x5120 []) (.seReg 1 2) ∧
    (startAt 0xFFC 0x3000 []).pc = 0xFFC ∧ (startAt 0xFFE 0x4001 []).pc = 0xFFE ∧
    (startAt 0xFFE 0x4001 []).status = .running := by
  refine ⟨?_, ?_, ?_, ?_⟩
  · show State.readV _ _ = _; decide +kernel
  · show State.readV _ _ ≠ _; decide +kernel
  · show State.readV _ _ = State.readV _ _; decide +kernel
  · decide +kernel

/-- The stored word is JP 0x200, at 0x202 and at the last place of memory. -/
theorem witness_StoredInstruction :
    (∀ e ∈ [(0x200, (0x202 : AddrReg)), (0xFFC, 0xFFE)],
      let s := startAt e.1 0xF155 [(0, 0x12), (1, 0x00)] e.2
      Runs s (.storeRegs 1) ∧ Memory.wf s.memory = true ∧ s.i.toNat = s.pc.toNat + 2 ∧
        s.i.toNat + 1 < Config.memSize ∧ decode (wordOfBytes (s.readV 0) (s.readV 1)) = .ok (.jp 0x200)) := by
  decide +kernel

theorem witness_StepReturnsEvents : ∃ t, step (start 0xD010 []) = .next t := ⟨_, rfl⟩

theorem witness_ControlFrame : familyOf (.call 0x400) = .control ∧ (∃ t, exec (.call 0x400) (start 0x2400 []) = .next t) ∧
    (∃ t, exec .ret (start 0x00EE []) = .next t) ∧ ∃ t, exec (.jp 0x200) (start 0x1200 []) = .next t :=
  ⟨rfl, ⟨_, rfl⟩, ⟨_, rfl⟩, ⟨_, rfl⟩⟩

theorem witness_AluFrame : familyOf (.addReg 15 1) = .alu ∧ ∃ t, exec (.addReg 15 1) (start 0x8F14 []) = .next t :=
  ⟨rfl, _, rfl⟩

theorem witness_LoadStoreFrame : familyOf (.storeRegs 1) = .loadStore ∧
    (∃ t, exec (.storeRegs 1) (start 0xF155 [] 0xFFE) = .next t) ∧
    ∃ t, exec (.storeRegs 1) (start 0xF155 [] 0xFFF) = .next t := ⟨rfl, ⟨_, rfl⟩, ⟨_, rfl⟩⟩

theorem witness_SpriteFrame : familyOf (.drw 0 0 2) = .sprite ∧
    (∃ t, exec (.drw 0 0 2) (start 0xD002 [] 0xFFE) = .next t) ∧
    ∃ t, exec (.drw 0 0 2) (start 0xD002 [] 0xFFF) = .next t := ⟨rfl, ⟨_, rfl⟩, ⟨_, rfl⟩⟩

theorem witness_OnlyRnd : (∃ t, exec (.rnd 3 0xFF) State.reset = .next t) ∧ (∃ t, exec .cls State.reset = .next t) ∧
    ∀ x nn, Instr.cls ≠ .rnd x nn := ⟨⟨_, rfl⟩, ⟨_, rfl⟩, fun _ _ h => nomatch h⟩

theorem witness_EventList : ∃ t, exec .cls { State.reset with events := [.present] } = .next t := ⟨_, rfl⟩

theorem witness_OnlyClsAndDrw : State.reset.status = .running ∧ (∃ t, exec .cls State.reset = .next t) ∧
    nextIs (exec (.drw 0 1 5) State.reset) (fun t => t.status == .running) = true ∧
    ∃ t, exec (.storeRegs 0) (start 0xF055 [] 0xFFF) = .next t := ⟨rfl, ⟨_, rfl⟩, by decide +kernel, ⟨_, rfl⟩⟩

theorem witness_Jump : (0x200#12).toNat = State.reset.pc.toNat ∧ (0x201#12).toNat ≠ State.reset.pc.toNat ∧
    State.reset.status = .running ∧ (0x1FF#12).toNat < layout.programStart ∧ (0xFFF#12).toNat = Config.memSize - 1 ∧
    (layout.programStart ≤ (0x201#12).toNat ∧ (0xFFD#12).toNat < Config.memSize - 1 ∧ (0xFFD#12).toNat % 2 = 1) := by
  decide +kernel

/-- `SP` at the values where the clauses meet, and at the empty stack. -/
theorem witness_Call : (startSp 0xEA1 0x2400).sp.toNat < layout.stackStart + 2 ∧
    (∀ sp ∈ [(0xEA2 : StackPtr), 0xF00], Memory.wf (startSp sp 0x2400).memory = true ∧
      layout.stackStart + 2 ≤ (startSp sp 0x2400).sp.toNat ∧ (startSp sp 0x2400).sp.toNat ≤ layout.stackEnd) :=
  ⟨by decide +kernel, List.forall_mem_cons.mpr ⟨by decide +kernel, List.forall_mem_singleton.mpr (by decide +kernel)⟩⟩

theorem witness_Return : (startSp 0xEFF 0x00EE).sp.toNat + 2 > layout.stackEnd ∧
    (startSp 0xEFE 0x00EE).sp.toNat + 2 ≤ layout.stackEnd := by decide +kernel

/-- The called `00EE` just below the pushed bytes, and just above them. -/
theorem witness_CallThenReturn_below :
    let s := startSp 0xEA2 0x2E9E [(0xE9F, 0xEE)]
    Runs s (.call 0xE9E) ∧ Memory.wf s.memory = true ∧ layout.stackStart + 2 ≤ s.sp.toNat ∧
      s.sp.toNat ≤ layout.stackEnd ∧ 0xE9E + 1 < s.sp.toNat - 2 ∧ decode (wordAt s 0xE9E) = .ok .ret := by decide +kernel

theorem witness_CallThenReturn_above :
    let s := startSp 0xF00 0x2F00 [(0xF01, 0xEE)]
    Runs s (.call 0xF00) ∧ Memory.wf s.memory = true ∧ s.sp.toNat ≤ 0xF00 ∧ 0xF00 ≤ Config.memSize - 2 ∧
      decode (wordAt s 0xF00) = .ok .ret := by decide +kernel

theorem witness_Skips_fatal : 0 < 1 ∧ 1 < 16 ∧ 0 < 15 ∧ 15 < 16 := by decide

theorem witness_Flags : (1 : Reg) ≠ VF ∧ (15 : Reg) = VF := by decide

theorem witness_BulkStore :
    (start 0xF155 [] 0xFFF).i.toNat + (1 : Reg).val ≥ Config.memSize ∧
      Memory.wf (start 0xF055 [] 0xFFF).memory = true ∧
      (start 0xF055 [] 0xFFF).i.toNat + (0 : Reg).val < Config.memSize := by decide +kernel

theorem witness_BulkLoad : (start 0xF165 [] 0xFFF).i.toNat + (1 : Reg).val ≥ Config.memSize ∧
    (start 0xFF65 [] 0xFF0).i.toNat + (15 : Reg).val < Config.memSize := by decide +kernel

theorem witness_BulkRoundTrip : Memory.wf (start 0xFF55 counting 0xFF0).memory = true ∧
    (start 0xFF55 counting 0xFF0).i.toNat + (15 : Reg).val < Config.memSize := by decide +kernel

/-- The pixels (0, 0) and (63, 31). -/
theorem witness_SilentPixels :
    (start 0xF055 [] 0xF00).i.toNat + 0 = layout.fbStart + 0 * layout.bytesPerRow + 0 / 8 ∧
      (start 0xF055 [] 0xFFF).i.toNat + (0 : Reg).val = layout.fbStart + 31 * layout.bytesPerRow + 63 / 8 ∧
      63 < layout.screenW ∧ 31 < layout.screenH ∧ Memory.wf (start 0xF055 [] 0xFFF).memory = true := by decide +kernel

theorem witness_Cls : Memory.wf (start 0x00E0 [] 0 [(0xF00, 0xFF)]).memory = true := by decide +kernel

theorem witness_DrawCompletes : ¬ (start 0xD012 [] 0xFFF).spriteReadable 1 2 ∧
    (start 0xD012 [] 0xFFE).spriteReadable 1 2 ∧ (start 0xD012 [(1, 31)] 0xFFF).spriteReadable 1 2 := by
  decide +kernel

theorem witness_DrawCompletes_store : storesTo (start 0xD011 [] 0x300) 0xF00 (.drw 0 1 1) :=
  ⟨0, 0, by decide +kernel, by decide, by decide +kernel, by decide +kernel⟩

/-- Vector S2, whose sprite covers a lit and a dark pixel; also the witness of the event list. -/
theorem witness_DrawFlips :
    let s := start 0xD011 [] 0x300 [(0x300, 0xC0), (0xF00, 0x80)]
    Memory.wf s.memory = true ∧ s.spriteReadable 1 1 ∧ s.spriteApart 0 1 1 ∧ s.spriteCovers 0 1 1 0 0 ∧
      s.spriteCovers 0 1 1 1 0 ∧ ¬ s.spriteCovers 0 1 1 2 0 ∧ s.pixel 0 0 = true ∧ s.pixel 1 0 = false := by
  refine ⟨by decide +kernel, by decide +kernel, State.spriteApart_of_below (by decide +kernel), ?_⟩
  unfold State.spriteCovers; decide +kernel

theorem witness_DrawingTwice : ∃ t t' : State, exec (.drw 0 1 1) (start 0xD011 [] 0x300 [(0x300, 0xC0)]) = .next t ∧
    t'.memory = t.memory ∧ t'.i = 0x300 ∧ t'.readV 0 = 0 ∧ t'.readV 1 = 0 :=
  ⟨_, _, rfl, rfl, rfl, rfl, rfl⟩

theorem witness_DrawingTwice_apart :
    let s := start 0xD011 [] 0x300 [(0x300, 0xC0)]
    Memory.wf s.memory = true ∧ s.spriteReadable 1 1 ∧ s.spriteApart 0 1 1 :=
  ⟨by decide +kernel, by decide +kernel, State.spriteApart_of_below (by decide +kernel)⟩

/-- The last row of the screen, its byte the last of memory. -/
theorem witness_EachRow :
    let s := start 0xD012 [(1, 30)] 0xFFE
    Memory.wf s.memory = true ∧ (2#4).toNat = (1#4).toNat + 1 ∧ (s.readV 1).toNat + (1#4).toNat < layout.screenH ∧
      s.i.toNat + (1#4).toNat < Config.memSize := by decide +kernel

theorem witness_EmptyDraw : layout.screenH ≤ ((start 0xD015 [(1, 32)] 0x1000).readV 1).toNat ∧
    layout.screenW ≤ ((start 0xD011 [(0, 64)] 0xFFF).readV 0).toNat ∧
    (start 0xD011 [(0, 64)] 0xFFF).spriteReadable 1 1 := by decide +kernel

theorem witness_CanonicalMemories : Memory.wf [(3, 2)] = true ∧
    ∀ a, Memory.read [(3, 2)] a = Memory.read (Memory.write [] 3 2) a := ⟨by decide, fun _ => rfl⟩

end Sys2Proof.Tests
end

