-- ==== Sys2Proof/Proofs/Scope.lean ====
section
/-! The layout check of R8 read as the conditions it stands for, and the decided layout under it. -/

namespace Sys2Proof

theorem Layout.ordered_iff (l : Layout) :
    l.ordered = true ↔ 0 < l.programStart ∧ l.programStart < l.stackStart ∧ l.stackStart < l.stackEnd ∧
      l.stackEnd ≤ l.fbStart ∧ l.fbStart + l.screenH * l.bytesPerRow ≤ Config.memSize := by
  simp [Layout.ordered, Layout.fbSize, and_assoc]

theorem Layout.evenBounds_iff (l : Layout) :
    l.evenBounds = true ↔ l.programStart % 2 = 0 ∧ l.stackStart % 2 = 0 ∧ l.stackEnd % 2 = 0 := by
  simp [Layout.evenBounds, and_assoc]

theorem Layout.stackRoom_iff (l : Layout) :
    l.stackRoom = true ↔ (l.stackEnd - l.stackStart) % 2 = 0 ∧ 2 ≤ l.stackEnd - l.stackStart := by
  simp [Layout.stackRoom]

theorem Layout.rowsFit_iff (l : Layout) : l.rowsFit = true ↔ l.screenW ≤ l.bytesPerRow * 8 := by
  simp [Layout.rowsFit]

theorem Layout.wellFormed_iff (l : Layout) :
    l.wellFormed = true ↔
      l.ordered = true ∧ l.evenBounds = true ∧ l.stackRoom = true ∧ l.rowsFit = true := by
  simp [Layout.wellFormed, and_assoc]

end Sys2Proof

namespace Sys2Proof.Machine

theorem layout_wellFormed : layout.wellFormed = true := by decide

/-- Settles O3: the check `Layout.wellFormed` stands for the four conditions of R8, and it accepts the decided
layout. -/
theorem layoutIsOrderedEvenAndFits : Obligations.LayoutIsOrderedEvenAndFits := by
  obtain ⟨hord, heven, hroom, hrows⟩ := (Layout.wellFormed_iff layout).mp layout_wellFormed
  exact ⟨layout.ordered_iff.mp hord, layout.evenBounds_iff.mp heven, layout.stackRoom_iff.mp hroom,
    layout.rowsFit_iff.mp hrows⟩

end Sys2Proof.Machine
end

section
/-! What an instruction may write: a frame rule for each operation on the state, what each instruction that can stop
does, and from both the frames of the four families of instructions. -/

namespace Sys2Proof.Machine

/-! ### One frame rule per operation -/

section
variable {s t : State} {regs : List Reg} {items : List Item} {stored : Nat → Prop}

theorem State.Frame.refl (s : State) (regs : List Reg) (items : List Item) (stored : Nat → Prop) :
    s.Frame s regs items stored :=
  ⟨fun _ _ => rfl, fun _ => rfl, fun _ => rfl, fun _ => rfl, fun _ => rfl, fun _ => rfl, rfl, fun _ _ => rfl⟩

theorem State.Frame.setPc (h : s.Frame t regs items stored) (w : ProgCounter) :
    s.Frame (t.setPc w) regs items stored := { h with }

theorem State.Frame.advance (h : s.Frame t regs items stored) : s.Frame t.advance regs items stored :=
  h.setPc _

theorem State.Frame.skipIf (h : s.Frame t regs items stored) (c : Bool) :
    s.Frame (t.skipIf c) regs items stored := by
  cases c
  · exact h.advance
  · exact h.setPc _

theorem State.Frame.writeV (h : s.Frame t regs items stored) {r : Reg} (hr : r ∈ regs) (b : Byte) :
    s.Frame (t.writeV r b) regs items stored :=
  { h with
    v := fun q hq => by
      have hne : q ≠ r := fun e => hq (e ▸ hr)
      rw [State.readV_writeV, if_neg hne, h.v q hq] }

theorem State.Frame.memWrite (h : s.Frame t regs items stored) {a : Nat} (ha : stored a) (b : Byte) :
    s.Frame (t.memWrite a b) regs items stored :=
  { h with
    memory := fun q hq => by
      have hne : q ≠ a := fun e => hq (e ▸ ha)
      rw [State.memRead_memWrite_ne _ _ hne, h.memory q hq] }

theorem State.Frame.setI (h : s.Frame t regs items stored) (hi : .i ∈ items) (w : AddrReg) :
    s.Frame (t.setI w) regs items stored := { h with i := fun hn => absurd hi hn }

theorem State.Frame.setSp (h : s.Frame t regs items stored) (hi : .sp ∈ items) (w : StackPtr) :
    s.Frame (t.setSp w) regs items stored := { h with sp := fun hn => absurd hi hn }

theorem State.Frame.setSeed (h : s.Frame t regs items stored) (hi : .rngSeed ∈ items) (x : Seed) :
    s.Frame (t.setSeed x) regs items stored := { h with rngSeed := fun hn => absurd hi hn }

theorem State.Frame.emit (h : s.Frame t regs items stored) (hi : .events ∈ items) (e : DisplayEvent) :
    s.Frame (t.emit e) regs items stored := { h with events := fun hn => absurd hi hn }

theorem State.Frame.raise (h : s.Frame t regs items stored) (hi : .status ∈ items) (d : Diagnostic) :
    s.Frame (t.raise d) regs items stored := { h with status := fun hn => absurd hi hn }

theorem State.Frame.halt (h : s.Frame t regs items stored) (hi : .status ∈ items) :
    s.Frame t.halt regs items stored := { h with status := fun hn => absurd hi hn }

theorem State.Frame.writeWithFlag (h : s.Frame t regs items stored) {x : Reg} (hx : x ∈ regs) (hf : VF ∈ regs)
    (last : Bool) (result flag : Byte) : s.Frame (t.writeWithFlag last x result flag) regs items stored := by
  cases last
  · exact (h.writeV hf flag).writeV hx result
  · exact (h.writeV hx result).writeV hf flag

theorem State.Frame.shiftWithFlag (h : s.Frame t regs items stored) {x : Reg} (hx : x ∈ regs) (hf : VF ∈ regs)
    (updated : Bool) (out shift : Byte → Byte) :
    s.Frame (t.shiftWithFlag updated x out shift) regs items stored :=
  (h.writeV hf _).writeV hx _

/-- A push stores the two bytes below `SP` (R112). -/
theorem State.Frame.push (hi : .sp ∈ items) (h2 : 2 ≤ s.sp.toNat)
    (hst : ∀ a, s.sp.toNat ≤ a + 2 → a < s.sp.toNat → stored a) (ra : Word) :
    s.Frame (s.push ra) regs items stored := by
  have hsp := sp_sub_two h2
  have hlo : stored (s.sp - 2).toNat := hst _ (by omega) (by omega)
  have hhi : stored ((s.sp - 2).toNat + 1) := hst _ (by omega) (by omega)
  exact (((Frame.refl s regs items stored).setSp hi _).memWrite hlo _).memWrite hhi _

theorem State.Frame.fill {a k : Nat} (hst : ∀ q, a ≤ q → q < a + k → stored q) (b : Byte) :
    s.Frame { s with memory := Memory.fill s.memory a b k } regs items stored :=
  { Frame.refl s regs items stored with
    memory := fun q hq => Memory.read_fill_outside s.memory b (by
      by_contra hin
      exact hq (hst q (by omega) (by omega))) }

theorem State.Frame.storeRegs {k : Nat} (hst : ∀ a, s.base ≤ a → a < s.base + k → stored a) :
    s.Frame (s.storeRegs k) regs items stored := by
  rw [State.storeRegs_eq]
  exact { Frame.refl s regs items stored with
    memory := fun a ha => State.storeRegs_memRead_outside s (by
      by_contra hin
      exact ha (hst a (by omega) (by omega))) }

theorem State.Frame.loadRegs {k : Nat} (hk : k ≤ 16) (hregs : ∀ r : Reg, r.val < k → r ∈ regs) :
    s.Frame (s.loadRegs k) regs items stored := by
  have hv : ∀ r, r ∉ regs → (s.loadRegs k).readV r = s.readV r := fun r hr => by
    rw [State.loadRegs_readV s hk, if_neg fun hlt => hr (hregs r hlt)]
  rw [State.loadRegs_eq]
  exact { Frame.refl s regs items stored with v := hv }

/-- What a draw keeps is a frame, given the bytes it leaves alone (R202). -/
theorem State.DrawKeeps.frame (h : s.DrawKeeps t) (hf : VF ∈ regs) (hi : .events ∈ items)
    (hmem : ∀ a, ¬ stored a → t.memRead a = s.memRead a) : s.Frame t regs items stored where
  v r hr := h.regs r fun e => hr (e ▸ hf)
  i _ := by rw [h.eq]
  sp _ := by rw [h.eq]
  rngSeed _ := by rw [h.eq]
  events hn := absurd hi hn
  status _ := by rw [h.eq]
  usedMemoryLen := by rw [h.eq]
  memory := hmem

end

theorem mem_regsUpTo {x r : Reg} : r ∈ regsUpTo x ↔ r ≤ x := by
  simp [regsUpTo]

/-! ### The instructions that can stop -/

/-- `t` is `s` after the instruction's own check failed. The cause is the one the spec names wherever `SP` is inside
its interval (R25, R235). -/
def State.FailsOwnCheck (s : State) (i : Instr) (t : State) : Prop :=
  ∃ d, t = s.raise d ∧ (s.spOk → ownCheck s i = some d)

theorem State.FailsOwnCheck.frame {s t : State} {i : Instr} (h : s.FailsOwnCheck i t) {regs : List Reg}
    {items : List Item} {stored : Nat → Prop} (hi : .status ∈ items) : s.Frame t regs items stored := by
  obtain ⟨d, rfl, -⟩ := h
  exact (Frame.refl s regs items stored).raise hi d

theorem State.FailsOwnCheck.not_running {s t : State} {i : Instr} (h : s.FailsOwnCheck i t) :
    t.status ≠ .running := by
  obtain ⟨d, rfl, -⟩ := h
  rw [State.raise_status]
  nofun

section
variable {s t : State}

/-- `1NNN` halts on its own address and jumps otherwise (R108, R109). -/
theorem exec_jp_cases {nnn : Addr12} (h : exec (.jp nnn) s = .next t) :
    (zextPc nnn = s.pc ∧ t = s.halt) ∨ t = s.setPc (zextPc nnn) := by
  by_cases hself : zextPc nnn = s.pc
  · rw [exec, execJp, if_pos hself] at h
    cases h
    exact .inl ⟨hself, rfl⟩
  · rw [exec, execJp, if_neg hself] at h
    cases h
    exact .inr rfl

/-- `2NNN` overflows, or pushes and jumps (R110 to R112). -/
theorem exec_call_cases {nnn : Addr12} (h : exec (.call nnn) s = .next t) :
    s.FailsOwnCheck (.call nnn) t ∨
      (layout.stackStart + 2 ≤ s.sp.toNat ∧ t = (s.push (s.pc + 2)).setPc (zextPc nnn)) := by
  by_cases hover : s.sp.toNat < layout.stackStart + 2
  · rw [exec, execCall, if_pos hover] at h
    cases h
    exact .inl ⟨_, rfl, fun _ => if_pos hover⟩
  · rw [exec, execCall, if_neg hover] at h
    cases h
    by_cases hfit : s.sp.toNat - 2 + 2 ≤ Config.memSize
    · exact .inr ⟨by omega, State.checked_of_le _ _ hfit⟩
    · refine .inl ⟨_, State.checked_of_gt _ _ (by omega), fun ⟨_, hsp, _⟩ => absurd hsp ?_⟩
      simp only [layout_stackStart, layout_stackEnd, memSize_eq] at *
      omega

/-- `00EE` underflows or pops (R113 to R115). -/
theorem exec_ret_cases (h : exec .ret s = .next t) :
    s.FailsOwnCheck .ret t ∨
      (s.sp.toNat + 2 ≤ layout.stackEnd ∧ t = (s.setPc s.top).setSp (s.sp + 2)) := by
  by_cases hunder : layout.stackEnd < s.sp.toNat + 2
  · rw [exec, execRet, if_pos hunder] at h
    cases h
    exact .inl ⟨_, rfl, fun _ => if_pos hunder⟩
  · rw [exec, execRet, if_neg hunder] at h
    cases h
    exact .inr ⟨by omega, rfl⟩

/-- `FX55` finds a byte past memory, or stores (R182, R184). -/
theorem exec_storeRegs_cases {x : Reg} (h : exec (.storeRegs x) s = .next t) :
    s.FailsOwnCheck (.storeRegs x) t ∨
      (s.base + (x.val + 1) ≤ Config.memSize ∧ t = (s.storeRegs (x.val + 1)).advance) := by
  cases h
  by_cases hfit : s.base + (x.val + 1) ≤ Config.memSize
  · exact .inr ⟨hfit, State.checked_of_le _ _ hfit⟩
  · have hout : s.i.toNat + x.val ≥ Config.memSize := Nat.le_of_lt_succ (Nat.lt_of_not_le hfit)
    exact .inl ⟨_, State.checked_of_gt _ _ (by omega), fun _ => if_pos hout⟩

/-- `FX65` finds a byte past memory, or loads (R183, R184). -/
theorem exec_loadRegs_cases {x : Reg} (h : exec (.loadRegs x) s = .next t) :
    s.FailsOwnCheck (.loadRegs x) t ∨ t = (s.loadRegs (x.val + 1)).advance := by
  cases h
  by_cases hfit : s.base + (x.val + 1) ≤ Config.memSize
  · exact .inr (State.checked_of_le _ _ hfit)
  · have hout : s.i.toNat + x.val ≥ Config.memSize := Nat.le_of_lt_succ (Nat.lt_of_not_le hfit)
    exact .inl ⟨_, State.checked_of_gt _ _ (by omega), fun _ => if_pos hout⟩

/-- `DXYN` finds a row past memory, or draws (R202, R203). -/
theorem exec_drw_cases {x y : Reg} {n : Nibble} (h : exec (.drw x y n) s = .next t) :
    s.FailsOwnCheck (.drw x y n) t ∨
      t = (s.drawSprite (s.readV x).toNat (s.readV y).toNat (spriteRows n (s.readV y))).advance := by
  cases h
  by_cases hnone : spriteRows n (s.readV y) = 0
  · exact .inr (if_pos hnone)
  · rw [if_neg hnone]
    by_cases hfit : s.base + spriteRows n (s.readV y) ≤ Config.memSize
    · exact .inr (State.checked_of_le _ _ hfit)
    · refine .inl ⟨_, State.checked_of_gt _ _ (by omega), fun _ => if_pos ?_⟩
      change spriteRows n (s.readV y) > 0 ∧ s.base + spriteRows n (s.readV y) - 1 ≥ Config.memSize
      omega

end

/-! ### The frames of the four families -/

/-- Settles O24: each case of a jump, call, return or skip is a few operations, each with its frame rule. -/
theorem controlInstructionsKeepTheirFrame : Obligations.ControlInstructionsKeepTheirFrame := by
  intro i s t hfam h
  have hs := State.Frame.refl s (writesRegs i) (writesItems i) fun a => storesTo s a i
  cases i with
  | jp nnn =>
    obtain ⟨-, rfl⟩ | rfl := exec_jp_cases h
    · exact hs.halt (List.mem_singleton_self _)
    · exact hs.setPc _
  | call nnn =>
    obtain hfail | ⟨hroom, rfl⟩ := exec_call_cases h
    · exact hfail.frame (by simp [writesItems])
    · have hpush := State.Frame.push (regs := []) (items := [.sp, .status]) (stored := fun a => storesTo s a (.call nnn))
        (by decide) (Nat.le_of_add_left_le hroom) (fun a hlo hhi => ⟨hlo, hhi⟩) (s.pc + 2)
      exact hpush.setPc _
  | ret =>
    obtain hfail | ⟨-, rfl⟩ := exec_ret_cases h
    · exact hfail.frame (by simp [writesItems])
    · exact (hs.setPc _).setSp (by decide) _
  | seByte x nn | sneByte x nn | seReg x y => cases h; exact hs.skipIf _
  | _ => cases hfam

/-- Settles O25: every ALU instruction is one register write, or one with a flag, and the advance of `PC`. -/
theorem aluInstructionsKeepTheirFrame : Obligations.AluInstructionsKeepTheirFrame := by
  intro i s t hfam h
  have hs := State.Frame.refl s (writesRegs i) (writesItems i) fun a => storesTo s a i
  cases i with
  | ldByte x nn | addByte x nn | ldReg x y | orReg x y | andReg x y | xorReg x y =>
    cases h
    exact (hs.writeV (List.mem_singleton_self x) _).advance
  | addReg x y | subReg x y | subnReg x y =>
    cases h
    exact (hs.writeWithFlag (x := x) (by simp [writesRegs]) (by simp [writesRegs]) _ _ _).advance
  | shr x y | shl x y =>
    cases h
    exact (hs.shiftWithFlag (x := x) (by simp [writesRegs]) (by simp [writesRegs]) _ _ _).advance
  | rnd x nn =>
    cases h
    exact ((hs.setSeed (List.mem_singleton_self _) _).writeV (List.mem_singleton_self x) _).advance
  | _ => cases hfam

/-- Settles O26: the bulk transfers touch only what their loops name, and the other two write `I`. -/
theorem loadStoreInstructionsKeepTheirFrame : Obligations.LoadStoreInstructionsKeepTheirFrame := by
  intro i s t hfam h
  have hs := State.Frame.refl s (writesRegs i) (writesItems i) fun a => storesTo s a i
  cases i with
  | ldI nnn | addI x =>
    cases h
    exact (hs.setI (List.mem_singleton_self _) _).advance
  | storeRegs x =>
    obtain hfail | ⟨-, rfl⟩ := exec_storeRegs_cases h
    · exact hfail.frame (by simp [writesItems])
    · exact (State.Frame.storeRegs fun a hlo hhi => ⟨hlo, Nat.le_of_lt_succ hhi⟩).advance
  | loadRegs x =>
    obtain hfail | rfl := exec_loadRegs_cases h
    · exact hfail.frame (by simp [writesItems])
    · exact (State.Frame.loadRegs x.isLt fun r hr => mem_regsUpTo.mpr (Nat.le_of_lt_succ hr)).advance
  | _ => cases hfam

/-- Settles O27: a clear fills the framebuffer alone, and a draw keeps all but the bytes of its own pixels. -/
theorem spriteInstructionsKeepTheirFrame : Obligations.SpriteInstructionsKeepTheirFrame := by
  intro i s t hfam h
  cases i with
  | cls =>
    cases h
    have hfill := State.Frame.fill (s := s) (regs := []) (items := [.events]) (stored := fun a => storesTo s a .cls)
      (fun a hlo hhi => ⟨hlo, hhi⟩) 0
    exact ((hfill.emit (List.mem_singleton_self _) _).emit (List.mem_singleton_self _) _).advance
  | drw x y n =>
    obtain hfail | rfl := exec_drw_cases h
    · exact hfail.frame (by simp [writesItems])
    · have hdraw := (s.drawSprite_keeps _ _ _).frame (regs := [VF]) (items := [.events, .status])
        (stored := fun a => storesTo s a (.drw x y n)) (by decide) (by decide)
        fun a ha => State.drawSprite_memRead_outside s fun j c hj hc hx e => ha ⟨j, c, hj, hc, hx, e⟩
      exact hdraw.advance
  | _ => cases hfam

/-- Every instruction keeps its frame. -/
theorem exec_frame {i : Instr} {s t : State} (h : exec i s = .next t) :
    s.Frame t (writesRegs i) (writesItems i) (fun a => storesTo s a i) := by
  cases hfam : familyOf i with
  | control => exact controlInstructionsKeepTheirFrame i s t hfam h
  | alu => exact aluInstructionsKeepTheirFrame i s t hfam h
  | loadStore => exact loadStoreInstructionsKeepTheirFrame i s t hfam h
  | sprite => exact spriteInstructionsKeepTheirFrame i s t hfam h

end Sys2Proof.Machine
end

section
/-! The display events of an instruction, and the items of State that instructions do not read: the generator's state
for all but `CXNN`, the event list and the loaded length for all (R29, R32, R38). -/

namespace Sys2Proof.Machine

/-! ### Which events an instruction emits -/

theorem exec_events_of_not_sprite {i : Instr} {s t : State} (h : exec i s = .next t) (hcls : i ≠ .cls)
    (hdrw : ∀ x y n, i ≠ .drw x y n) : t.events = s.events := by
  refine (exec_frame h).events ?_
  cases i with
  | cls => exact absurd rfl hcls
  | drw x y n => exact absurd rfl (hdrw x y n)
  | _ => simp [writesItems]

theorem exec_cls_events {s t : State} (h : exec .cls s = .next t) : t.events = s.events ++ [.clear, .present] := by
  obtain rfl := Host.Outcome.next.inj h
  simp

/-- An event that names a pixel of the screen. -/
def DisplayEvent.isPixel (e : DisplayEvent) : Prop := e ≠ .present ∧ e ≠ .clear ∧ e.onScreen

theorem isPixel_flip {cx cy : Nat} (hx : cx < layout.screenW) (hy : cy < layout.screenH) (lit : Bool) :
    DisplayEvent.isPixel (if lit then .clearPx cx cy else .drawPx cx cy) := by
  cases lit
  · exact ⟨nofun, nofun, hx, hy⟩
  · exact ⟨nofun, nofun, hx, hy⟩

/-- From `s` to `t` the event list grew by pixel events alone. -/
def State.EmitsPixels (s t : State) : Prop := ∃ es, t.events = s.events ++ es ∧ ∀ e ∈ es, e.isPixel

theorem State.EmitsPixels.refl (s : State) : s.EmitsPixels s := ⟨[], by simp, by simp⟩

theorem State.EmitsPixels.trans {s t u : State} (h : s.EmitsPixels t) (k : t.EmitsPixels u) : s.EmitsPixels u := by
  obtain ⟨es, he, hes⟩ := h
  obtain ⟨fs, hf, hfs⟩ := k
  refine ⟨es ++ fs, by rw [hf, he, List.append_assoc], fun e hmem => ?_⟩
  exact (List.mem_append.mp hmem).elim (hes e) (hfs e)

theorem State.drawColumn_emitsPixels (sb : Byte) (x0 c : Nat) {cy : Nat} (hy : cy < layout.screenH) (s : State) :
    s.EmitsPixels (s.drawColumn sb x0 cy c) := by
  unfold State.drawColumn
  split
  case isTrue hin =>
    exact ⟨_, State.flipPixel_events _ _ s, fun e he => List.mem_singleton.mp he ▸ isPixel_flip hin.1 hy _⟩
  case isFalse => exact .refl s

theorem State.drawRow_emitsPixels (x0 : Nat) {y0 j : Nat} (hy : y0 + j < layout.screenH) (s : State) :
    s.EmitsPixels (s.drawRow x0 y0 j) :=
  forUpTo_induct (fun _ t => s.EmitsPixels t) 8 (.refl s) fun c t _ h =>
    h.trans (State.drawColumn_emitsPixels _ _ c hy t)

/-- A draw emits pixel events and then `present()` once (R206). -/
theorem State.drawSprite_events (s : State) (x0 : Nat) (y0 : Byte) (n : Nibble) :
    ∃ es, (s.drawSprite x0 y0.toNat (spriteRows n y0)).events = s.events ++ es ++ [.present] ∧
      ∀ e ∈ es, e.isPixel := by
  have hrows : s.EmitsPixels (forUpTo (State.drawRow x0 y0.toNat) (spriteRows n y0) (s.writeV VF 0)) :=
    forUpTo_induct (fun _ t => s.EmitsPixels t) _ (.refl s) fun j t hj h =>
      h.trans (State.drawRow_emitsPixels x0 (by simpa using spriteRows_onScreen hj) t)
  obtain ⟨es, he, hes⟩ := hrows
  exact ⟨es, by rw [State.drawSprite, State.emit_events, he], hes⟩

/-- Settles O30: the frames exclude all but `00E0` and `DXYN`, and a draw emits pixel by pixel. -/
theorem onlyClsAndDrwEmitEvents : Obligations.OnlyClsAndDrwEmitEvents := by
  intro i s t _ h
  refine ⟨?_, ?_, exec_events_of_not_sprite h⟩
  · rintro rfl
    exact exec_cls_events h
  · rintro x y n rfl hrun
    obtain hfail | rfl := exec_drw_cases h
    · exact absurd hrun hfail.not_running
    · exact s.drawSprite_events _ _ n

/-! ### The items that are not read -/

section
variable (f : Seed → Seed) (fs : List DisplayEvent) (len : Nat → Nat)

/-- `s` with another generator state, another loaded length, and `fs` before its events. -/
def State.disguise (s : State) : State :=
  { s with rngSeed := f s.rngSeed, events := fs ++ s.events, usedMemoryLen := len s.usedMemoryLen }

variable (s : State)

@[simp] theorem State.disguise_readV (r : Reg) : (s.disguise f fs len).readV r = s.readV r := rfl
@[simp] theorem State.disguise_base : (s.disguise f fs len).base = s.base := rfl

@[simp] theorem State.disguise_memory : (s.disguise f fs len).memory = s.memory := rfl

theorem State.disguise_withMemory (m : Memory) :
    { s.disguise f fs len with memory := m } = State.disguise f fs len { s with memory := m } := rfl

@[simp] theorem State.disguise_writeV (r : Reg) (b : Byte) :
    (s.disguise f fs len).writeV r b = (s.writeV r b).disguise f fs len := rfl

@[simp] theorem State.disguise_advance :
    (s.disguise f fs len).advance = s.advance.disguise f fs len := rfl

@[simp] theorem State.disguise_emit (e : DisplayEvent) :
    (s.disguise f fs len).emit e = (s.emit e).disguise f fs len := by
  simp [State.disguise, State.emit]

@[simp] theorem State.disguise_skipIf (c : Bool) :
    (s.disguise f fs len).skipIf c = (s.skipIf c).disguise f fs len := by
  cases c <;> rfl

@[simp] theorem State.disguise_checked (base k : Nat) (t : State) :
    (s.disguise f fs len).checked base k (t.disguise f fs len) = (s.checked base k t).disguise f fs len := by
  unfold State.checked
  cases outOfRange base k <;> rfl

/-- A loop does the same in disguise when its body does. -/
theorem forUpTo_disguise (body : Nat → State → State)
    (hbody : ∀ j t, body j (State.disguise f fs len t) = (body j t).disguise f fs len) (k : Nat) :
    forUpTo body k (s.disguise f fs len) = (forUpTo body k s).disguise f fs len := by
  induction k with
  | zero => rfl
  | succ k ih => rw [forUpTo, ih, hbody, forUpTo]

@[simp] theorem State.disguise_storeRegs (k : Nat) :
    (s.disguise f fs len).storeRegs k = (s.storeRegs k).disguise f fs len :=
  forUpTo_disguise f fs len s State.storeReg (fun _ _ => rfl) k

@[simp] theorem State.disguise_loadRegs (k : Nat) :
    (s.disguise f fs len).loadRegs k = (s.loadRegs k).disguise f fs len :=
  forUpTo_disguise f fs len s State.loadReg (fun _ _ => rfl) k

theorem State.disguise_flipPixel (cx cy : Nat) :
    (s.disguise f fs len).flipPixel cx cy = (s.flipPixel cx cy).disguise f fs len := by
  by_cases hlit : s.pixel cx cy = true
  · rw [State.flipPixel_lit cx cy s hlit, State.flipPixel_lit cx cy (s.disguise f fs len) hlit,
      ← State.disguise_emit]
    rfl
  · rw [State.flipPixel_dark cx cy s hlit, State.flipPixel_dark cx cy (s.disguise f fs len) hlit,
      ← State.disguise_emit]
    rfl

theorem State.disguise_drawColumn (sb : Byte) (x0 cy c : Nat) :
    (s.disguise f fs len).drawColumn sb x0 cy c = (s.drawColumn sb x0 cy c).disguise f fs len := by
  unfold State.drawColumn
  split
  · exact State.disguise_flipPixel f fs len s _ _
  · rfl

theorem State.disguise_drawRow (x0 y0 j : Nat) :
    (s.disguise f fs len).drawRow x0 y0 j = (s.drawRow x0 y0 j).disguise f fs len :=
  forUpTo_disguise f fs len s _ (fun c t => State.disguise_drawColumn f fs len t _ _ _ c) 8

@[simp] theorem State.disguise_drawSprite (x0 y0 rows : Nat) :
    (s.disguise f fs len).drawSprite x0 y0 rows = (s.drawSprite x0 y0 rows).disguise f fs len := by
  have hrows := forUpTo_disguise f fs len (s.writeV VF 0) _ (fun j t => State.disguise_drawRow f fs len t x0 y0 j) rows
  rw [State.drawSprite, State.disguise_writeV, hrows, State.disguise_emit, State.drawSprite]

end

/-- An instruction does the same in disguise; `CXNN` only where the disguise keeps the generator's state. -/
theorem exec_disguise (f : Seed → Seed) (fs : List DisplayEvent) (len : Nat → Nat) {i : Instr} {s t : State}
    (h : exec i s = .next t) (hseed : (∀ x nn, i ≠ .rnd x nn) ∨ f = id) :
    exec i (s.disguise f fs len) = .next (t.disguise f fs len) := by
  cases i with
  | jp nnn =>
    rw [exec, execJp] at h
    split at h
    case isTrue hself => cases h; exact if_pos hself
    case isFalse hother => cases h; exact if_neg hother
  | call nnn =>
    rw [exec, execCall] at h
    split at h
    case isTrue hover => cases h; exact if_pos hover
    case isFalse hroom => 
      cases h
      exact (if_neg hroom).trans (congrArg Host.Outcome.next 
        (State.disguise_checked f fs len s _ _ ((s.push (s.pc + 2)).setPc (zextPc nnn))))
  | ret =>
    rw [exec, execRet] at h
    split at h
    case isTrue hunder => cases h; exact if_pos hunder
    case isFalse hroom => cases h; exact if_neg hroom
  | seByte x nn | sneByte x nn | seReg x y =>
    cases h
    exact congrArg Host.Outcome.next (State.disguise_skipIf f fs len s _)
  | cls =>
    obtain rfl := Host.Outcome.next.inj h
    rw [exec, execCls, State.disguise_withMemory, State.disguise_emit, State.disguise_emit, State.disguise_advance,
      State.disguise_memory]
  | storeRegs x => cases h; simp [exec, execStoreRegs]
  | loadRegs x => cases h; simp [exec, execLoadRegs]
  | drw x y n =>
    cases h
    simp only [exec, execDrw, State.disguise_readV, State.disguise_base, State.disguise_drawSprite,
      State.disguise_advance, State.disguise_checked]
    split <;> rfl
  | rnd x nn =>
    obtain hne | rfl := hseed
    · exact absurd rfl (hne x nn)
    · cases h; rfl
  | _ => cases h; rfl

/-- Settles O28: `CXNN` stores the next state of the generator, and every other instruction does the same with another
one in its place. -/
theorem onlyRndReadsOrWritesTheSeed : Obligations.OnlyRndReadsOrWritesTheSeed := by
  refine ⟨fun x nn s t h => by cases h; rfl, fun i s t seed hne h => ?_⟩
  have hseed : t.rngSeed = s.rngSeed := (exec_frame h).rngSeed (by
    cases i with
    | rnd x nn => exact absurd rfl (hne x nn)
    | _ => simp [writesItems])
  exact ⟨hseed, exec_disguise (fun _ => seed) [] id h (.inl hne)⟩

/-- Every instruction answers a next state. -/
theorem exec_answers (i : Instr) (s : State) : ∃ t, exec i s = .next t := by
  cases i with
  | jp nnn => rw [exec, execJp]; split <;> exact ⟨_, rfl⟩
  | call nnn => rw [exec, execCall]; split <;> exact ⟨_, rfl⟩
  | ret => rw [exec, execRet]; split <;> exact ⟨_, rfl⟩
  | _ => exact ⟨_, rfl⟩

/-- Settles O29: `es` is what the instruction emits from an empty list, before which it may find any other. -/
theorem eventListIsOnlyAppendedTo : Obligations.EventListIsOnlyAppendedTo := by
  intro i s t h
  obtain ⟨u, hu⟩ := exec_answers i { s with events := [] }
  have hs : State.disguise id s.events (fun _ => s.usedMemoryLen) { s with events := [] } = s := by
    simp [State.disguise]
  have hown := exec_disguise id s.events (fun _ => s.usedMemoryLen) hu (.inr rfl)
  rw [hs, h] at hown
  obtain rfl := Host.Outcome.next.inj hown
  refine ⟨u.events, rfl, fun fs n => ?_⟩
  simpa [State.disguise] using exec_disguise id fs (fun _ => n) hu (.inr rfl)

/-- A step keeps the event list as the beginning of the next one (R38). -/
theorem step_events_grow {s t : State} (h : step s = .next t) : ∃ es, t.events = s.events ++ es := by
  obtain ⟨-, rfl⟩ | ⟨-, d, -, rfl⟩ | ⟨-, -, r, -, rfl⟩ | ⟨-, -, i, -, hexec⟩ := step_cases h
  · exact ⟨[], (List.append_nil _).symm⟩
  · exact ⟨[], (List.append_nil _).symm⟩
  · exact ⟨[], (List.append_nil _).symm⟩
  · obtain ⟨es, hes, -⟩ := eventListIsOnlyAppendedTo i s t hexec
    exact ⟨es, hes⟩

/-- Settles O23: the list of `s` begins that of `t`, so that dropping its length leaves what was appended. -/
theorem stepReturnsTheEventsItAppends : Obligations.StepReturnsTheEventsItAppends := by
  intro s t h
  obtain ⟨es, hes⟩ := step_events_grow h
  have hnew : stepEvents s = es := by simp [stepEvents, h, hes]
  rw [hnew, hes]

end Sys2Proof.Machine
end

section
/-! `PC` after a step, and the invariant of a run: each of its parts is kept by every instruction, and it holds at
boot. -/

namespace Sys2Proof.Machine

/-! ### `PC` -/

/-- `next_pc` of an instruction that neither halts nor faults (R107). -/
def State.nextPc (s : State) : Instr → ProgCounter
  | .jp nnn | .call nnn => zextPc nnn
  | .ret => s.top
  | .seByte x nn => if s.readV x = nn then s.pc + 4 else s.pc + 2
  | .sneByte x nn => if s.readV x ≠ nn then s.pc + 4 else s.pc + 2
  | .seReg x y => if s.readV x = s.readV y then s.pc + 4 else s.pc + 2
  | _ => s.pc + 2

section
variable {s t : State} {i : Instr}

theorem exec_pc (h : exec i s = .next t) (hrun : t.status = .running) : t.pc = s.nextPc i := by
  cases i with
  | cls =>
    obtain rfl := Host.Outcome.next.inj h
    simp [State.nextPc]
  | jp nnn =>
    obtain ⟨-, rfl⟩ | rfl := exec_jp_cases h
    · cases hrun
    · rfl
  | call nnn =>
    obtain hfail | ⟨-, rfl⟩ := exec_call_cases h
    · exact absurd hrun hfail.not_running
    · rfl
  | ret =>
    obtain hfail | ⟨-, rfl⟩ := exec_ret_cases h
    · exact absurd hrun hfail.not_running
    · rfl
  | seByte x nn | sneByte x nn | seReg x y =>
    cases h
    simp [State.nextPc]
  | storeRegs x =>
    obtain hfail | ⟨-, rfl⟩ := exec_storeRegs_cases h
    · exact absurd hrun hfail.not_running
    · rw [State.advance_pc, State.storeRegs_eq]
      rfl
  | loadRegs x =>
    obtain hfail | rfl := exec_loadRegs_cases h
    · exact absurd hrun hfail.not_running
    · rw [State.advance_pc, State.loadRegs_eq]
      rfl
  | drw x y n =>
    obtain hfail | rfl := exec_drw_cases h
    · exact absurd hrun hfail.not_running
    · rw [State.advance_pc, (s.drawSprite_keeps _ _ _).eq]
      rfl
  | _ => cases h; rfl

theorem State.nextPc_of_skips (h : skips s i) : s.nextPc i = s.pc + 4 := by
  cases i with
  | seByte x nn | sneByte x nn | seReg x y => exact if_pos h
  | _ => exact h.elim

theorem State.nextPc_of_not_skips (hjump : ∀ nnn, i ≠ .jp nnn ∧ i ≠ .call nnn) (hret : i ≠ .ret)
    (h : ¬ skips s i) : s.nextPc i = s.pc + 2 := by
  cases i with
  | jp nnn => exact absurd rfl (hjump nnn).1
  | call nnn => exact absurd rfl (hjump nnn).2
  | ret => exact absurd rfl hret
  | seByte x nn | sneByte x nn | seReg x y => exact if_neg h
  | _ => rfl

theorem step_of_decode (hs : s.status = .running) (hcan : s.canFetch) (hdec : decode s.fetch = .ok i) :
    step s = exec i s := by
  rw [step_of_running hs, State.fetchFault_eq_none.mpr hcan]
  simp only [hdec]

end

/-- Settles O18: each clause is a value of `nextPc`; all but the popped one are at most the fetch address plus 4, or
12 bits wide. -/
theorem pcAfterAStep : Obligations.PcAfterAStep := by
  intro s t i hs hcan hdec hstep hrun
  have hpc : t.pc = s.nextPc i := exec_pc ((step_of_decode hs hcan hdec).symm.trans hstep) hrun
  have hlast : s.pc.toNat ≤ 0xFFE := hcan.2.1
  have hjump : ∀ nnn, i = .jp nnn ∨ i = .call nnn → t.pc.toNat = nnn.toNat := by
    rintro nnn (rfl | rfl) <;> rw [hpc] <;> exact zextPc_toNat nnn
  have hskip : skips s i → t.pc.toNat = s.pc.toNat + 4 := fun h => by
    rw [hpc, State.nextPc_of_skips h, pc_add_four hlast]
  have hnext : (∀ nnn, i ≠ .jp nnn ∧ i ≠ .call nnn) → i ≠ .ret → ¬ skips s i → t.pc.toNat = s.pc.toNat + 2 :=
    fun h hret hno => by rw [hpc, State.nextPc_of_not_skips h hret hno, pc_add_two hlast]
  refine ⟨hjump, ?_, hskip, hnext, fun hret => ?_⟩
  · rintro rfl
    exact hpc
  · by_cases hj : ∃ nnn, i = .jp nnn ∨ i = .call nnn
    · obtain ⟨nnn, hi⟩ := hj
      have := nnn.isLt
      rw [hjump nnn hi]
      omega
    · by_cases hsk : skips s i
      · rw [hskip hsk]
        omega
      · rw [hnext (fun nnn => not_or.mp fun hi => hj ⟨nnn, hi⟩) hret hsk]
        omega

/-! ### The causes of faults -/

section
variable {s : State}

theorem State.faultCause_of_fetchFault {d : Diagnostic} (h : s.fetchFault = some d) : s.faultCause = some d := by
  unfold State.fetchFault at h
  unfold State.faultCause
  simp only [layout_programStart, memSize_eq] at *
  split at h
  case isTrue hrange => rw [if_pos (by omega), h]
  case isFalse hrange =>
    split at h
    case isTrue hodd => rw [if_neg (by omega), if_pos (by omega), h]
    case isFalse => cases h

theorem State.faultCause_of_decode_ok {i : Instr} (h : s.canFetch) (hdec : decode s.fetch = .ok i) :
    s.faultCause = ownCheck s i := by
  obtain ⟨hlo, hhi, heven⟩ := h
  change decode (s.memRead2 s.pc.toNat) = .ok i at hdec
  rw [State.faultCause, if_neg (by omega), if_neg (by omega)]
  simp only [hdec]

theorem State.faultCause_of_decode_error {r : Reject} (h : s.canFetch) (hdec : decode s.fetch = .error r) :
    s.faultCause = some (.decodeFatal s.pc s.fetch) := by
  obtain ⟨hlo, hhi, heven⟩ := h
  change decode (s.memRead2 s.pc.toNat) = .error r at hdec
  rw [State.faultCause, if_neg (by omega), if_neg (by omega)]
  simp only [hdec, State.fetch]

/-- The cause of a fault does not depend on the run status. -/
theorem State.faultCause_raise (d : Diagnostic) : (s.raise d).faultCause = s.faultCause := rfl

theorem State.faultCause_halt : s.halt.faultCause = s.faultCause := rfl

theorem State.Inv.raise (h : s.Inv) {d : Diagnostic} (hd : s.faultCause = some d) : (s.raise d).Inv :=
  { h with
    halted := nofun
    faulted := fun e he => by
      obtain rfl : d = e := by injection he
      exact hd }

theorem State.Inv.halt (h : s.Inv) (hself : s.atSelfJump) : s.halt.Inv :=
  { h with
    halted := fun _ => hself
    faulted := nofun }

/-! ### The parts of the invariant -/

variable {t : State} {i : Instr}

/-- Everything an instruction can do to the run status. -/
theorem exec_status_cases (h : exec i s = .next t) :
    s.FailsOwnCheck i t ∨ (∃ nnn, i = .jp nnn ∧ zextPc nnn = s.pc ∧ t = s.halt) ∨ t.status = s.status := by
  cases i with
  | jp nnn =>
    obtain ⟨hself, rfl⟩ | rfl := exec_jp_cases h
    · exact .inr (.inl ⟨nnn, rfl, hself, rfl⟩)
    · exact .inr (.inr rfl)
  | call nnn => exact (exec_call_cases h).imp_right fun ⟨_, ht⟩ => .inr (by rw [ht]; rfl)
  | ret => exact (exec_ret_cases h).imp_right fun ⟨_, ht⟩ => .inr (by rw [ht]; rfl)
  | storeRegs x =>
    exact (exec_storeRegs_cases h).imp_right fun ⟨_, ht⟩ => .inr (by rw [ht, State.storeRegs_eq]; rfl)
  | loadRegs x => exact (exec_loadRegs_cases h).imp_right fun ht => .inr (by rw [ht, State.loadRegs_eq]; rfl)
  | drw x y n =>
    exact (exec_drw_cases h).imp_right fun ht => .inr (by rw [ht, (s.drawSprite_keeps _ _ _).eq]; rfl)
  | _ => exact .inr (.inr ((exec_frame h).status (by simp [writesItems])))

theorem State.FailsOwnCheck.memory (h : s.FailsOwnCheck i t) : t.memory = s.memory := by
  obtain ⟨d, rfl, -⟩ := h
  rfl

theorem exec_cls_memory (h : exec .cls s = .next t) :
    t.memory = Memory.fill s.memory layout.fbStart 0 layout.fbSize := by
  obtain rfl := Host.Outcome.next.inj h
  simp only [State.advance_memory, State.emit_memory]

/-- Every instruction keeps the canonical form of memory. -/
theorem exec_wf (h : exec i s = .next t) (hm : Memory.wf s.memory = true) : Memory.wf t.memory = true := by
  cases i with
  | cls =>
    rw [exec_cls_memory h]
    exact Memory.wf_fill _ _ _ hm
  | jp nnn =>
    obtain ⟨-, rfl⟩ | rfl := exec_jp_cases h <;> exact hm
  | call nnn =>
    obtain hfail | ⟨-, rfl⟩ := exec_call_cases h
    · rwa [hfail.memory]
    · exact State.wf_push _ hm
  | ret =>
    obtain hfail | ⟨-, rfl⟩ := exec_ret_cases h
    · rwa [hfail.memory]
    · exact hm
  | seByte x nn | sneByte x nn | seReg x y =>
    cases h
    rwa [State.skipIf_memory]
  | storeRegs x =>
    obtain hfail | ⟨hfit, rfl⟩ := exec_storeRegs_cases h
    · rwa [hfail.memory]
    · exact (State.storeRegs_spec _ hm hfit).1
  | loadRegs x =>
    obtain hfail | rfl := exec_loadRegs_cases h
    · rwa [hfail.memory]
    · rwa [State.advance_memory, State.loadRegs_eq]
  | drw x y n =>
    obtain hfail | rfl := exec_drw_cases h
    · rwa [hfail.memory]
    · exact (s.drawSprite_keeps _ _ _).wf hm
  | _ => cases h; exact hm

theorem sp_add_two {sp : StackPtr} (h : sp.toNat + 2 ≤ layout.stackEnd) : (sp + 2).toNat = sp.toNat + 2 := by
  rw [layout_stackEnd] at h
  rw [BitVec.toNat_add, show BitVec.toNat (2 : StackPtr) = 2 from rfl, two_pow_widthSp]
  omega

/-- Every instruction keeps `SP` even and inside its interval (R25). -/
theorem exec_spOk (h : exec i s = .next t) (hsp : s.spOk) : t.spOk := by
  obtain ⟨hlo, hhi, heven⟩ := hsp
  have hfixed : t.sp = s.sp → t.spOk := fun e => by
    rw [State.spOk, e]
    exact ⟨hlo, hhi, heven⟩
  cases i with
  | call nnn =>
    obtain ⟨d, rfl, -⟩ | ⟨hroom, rfl⟩ := exec_call_cases h
    · exact hfixed rfl
    · have hsub : (s.sp - 2).toNat = s.sp.toNat - 2 := sp_sub_two (by omega)
      change layout.stackStart ≤ (s.sp - 2).toNat ∧ (s.sp - 2).toNat ≤ layout.stackEnd ∧ (s.sp - 2).toNat % 2 = 0
      omega
  | ret =>
    obtain ⟨d, rfl, -⟩ | ⟨hroom, rfl⟩ := exec_ret_cases h
    · exact hfixed rfl
    · have hadd : (s.sp + 2).toNat = s.sp.toNat + 2 := sp_add_two hroom
      change layout.stackStart ≤ (s.sp + 2).toNat ∧ (s.sp + 2).toNat ≤ layout.stackEnd ∧ (s.sp + 2).toNat % 2 = 0
      omega
  | _ => exact hfixed ((exec_frame h).sp (by simp [writesItems]))

/-- Every instruction keeps the pixel events on the screen (R204). -/
theorem exec_onScreen (h : exec i s = .next t) (hs : ∀ e ∈ s.events, e.onScreen) : ∀ e ∈ t.events, e.onScreen := by
  cases i with
  | cls =>
    rw [exec_cls_events h]
    intro e hmem
    simp only [List.mem_append, List.mem_cons, List.not_mem_nil, or_false] at hmem
    obtain hold | rfl | rfl := hmem
    · exact hs e hold
    · trivial
    · trivial
  | drw x y n =>
    obtain ⟨d, rfl, -⟩ | rfl := exec_drw_cases h
    · exact hs
    · obtain ⟨es, he, hes⟩ := s.drawSprite_events (s.readV x).toNat (s.readV y) n
      rw [State.advance_events, he]
      intro e hmem
      simp only [List.mem_append, List.mem_singleton] at hmem
      obtain (hold | hpix) | rfl := hmem
      · exact hs e hold
      · exact (hes e hpix).2.2
      · trivial
  | _ => rw [exec_events_of_not_sprite h (by nofun) (by nofun)]; exact hs

/-- An instruction of a running machine keeps the invariant. -/
theorem exec_inv (h : exec i s = .next t) (hrun : s.status = .running) (hcan : s.canFetch)
    (hdec : decode s.fetch = .ok i) (hI : s.Inv) : t.Inv := by
  have hcause : s.faultCause = ownCheck s i := State.faultCause_of_decode_ok hcan hdec
  obtain ⟨d, rfl, hd⟩ | ⟨nnn, rfl, hself, rfl⟩ | hkeeps := exec_status_cases h
  · exact hI.raise (hcause.trans (hd hI.stack))
  · exact hI.halt ⟨hcause, nnn, hdec, by rw [← hself, zextPc_toNat]⟩
  · rw [hrun] at hkeeps
    exact
      { memory := exec_wf h hI.memory
        stack := exec_spOk h hI.stack
        loaded := (exec_frame h).usedMemoryLen ▸ hI.loaded
        screen := exec_onScreen h hI.screen
        halted := fun hh => by rw [hkeeps] at hh; cases hh
        faulted := fun d hd => by rw [hkeeps] at hd; cases hd }

end

/-- Settles O19: a step changes nothing, raises the fault whose cause stands first, or runs an instruction. -/
theorem everyStepKeepsTheInvariant : Obligations.EveryStepKeepsTheInvariant := by
  intro s t hI hstep
  obtain ⟨-, rfl⟩ | ⟨-, d, hfetch, rfl⟩ | ⟨-, hcan, r, hdec, rfl⟩ | ⟨hrun, hcan, i, hdec, hexec⟩ := step_cases hstep
  · exact hI
  · exact hI.raise (State.faultCause_of_fetchFault hfetch)
  · exact hI.raise (State.faultCause_of_decode_error hcan hdec)
  · exact exec_inv hexec hrun hcan hdec hI

/-! ### Boot -/

theorem State.resetWith_inv (seed : Seed) : (State.resetWith seed).Inv where
  memory := Memory.wf_nil
  stack := by
    have hsp : (State.resetWith seed).sp.toNat = layout.stackEnd := rfl
    simp [State.spOk, hsp]
  loaded := by simp [State.resetWith]
  screen := nofun
  halted := nofun
  faulted := nofun

/-- Loading a program that fits keeps the invariant of a running machine (R262). -/
theorem State.Inv.load {s : State} (h : s.Inv) (hrun : s.status = .running) {p : List Byte}
    (hfits : layout.programFits p = true) : (s.load p).Inv :=
  { h with
    memory := Memory.wf_writeAll _ _ h.memory
    loaded := of_decide_eq_true hfits
    halted := fun hh => absurd (hrun.symm.trans hh) nofun
    faulted := fun _ hd => absurd (hrun.symm.trans hd) nofun }

/-- Settles O20: reset meets the invariant for every seed, and a load keeps it. -/
theorem bootedMachineMeetsTheInvariant : Obligations.BootedMachineMeetsTheInvariant := by
  refine ⟨State.resetWith_inv resetSeed, fun seed p s hboot => ?_⟩
  obtain ⟨hfits, hload⟩ := Option.ite_none_right_eq_some.mp hboot
  obtain rfl := Option.some.inj hload
  exact (State.resetWith_inv seed).load rfl hfits

end Sys2Proof.Machine
end

section
/-! The regions of memory (R50), and what a bulk store leaves to be read: by the display (R34, R62) and by the next
fetch (R66). -/

namespace Sys2Proof.Machine

/-! ### Regions -/

/-- In the decided layout the regions follow each other without a gap, so that `regionOf` is a scale of bounds. -/
theorem regionOf_eq (a : Nat) :
    regionOf a =
      if a < 0x200 then some .reserved else if a < 0xEA0 then some .program else if a < 0xF00 then some .stack
      else if a < 0x1000 then some .framebuffer else none := by
  by_cases hbelow : a < 0xF00
  · simp [regionOf, hbelow]
  · simp [regionOf, hbelow, Nat.le_of_not_lt hbelow]

/-- Settles O4: between two bounds of the scale `regionOf` has one value, and exactly one interval of the table holds
the address. -/
theorem regionsPartitionMemory : Obligations.RegionsPartitionMemory := by
  intro a
  rw [regionOf_eq]
  split_ifs <;> simp <;> omega

/-! ### A bulk store that fits -/

/-- The byte at `I + r` is the register it was stored from (R182). -/
theorem State.storeRegs_memRead_reg {s : State} {x r : Reg} (hm : Memory.wf s.memory = true)
    (hfit : s.i.toNat + x.val < Config.memSize) (hr : r ≤ x) :
    (s.storeRegs (x.val + 1)).memRead (s.i.toNat + r.val) = s.readV r := by
  have hstored := (State.storeRegs_spec (x.val + 1) hm hfit).2 r.val (Nat.lt_succ_of_le hr)
  rwa [bulkReg_eq] at hstored

/-- An `FX55` whose bytes all exist stores its registers, advances, and changes nothing else (R182, R184). -/
theorem exec_storeRegs_of_fits {s : State} {x : Reg} (hm : Memory.wf s.memory = true)
    (hfit : s.i.toNat + x.val < Config.memSize) :
    ∃ t, exec (.storeRegs x) s = .next t ∧ (∀ r : Reg, r ≤ x → t.memRead (s.i.toNat + r.val) = s.readV r) ∧
      t.pc = s.pc + 2 ∧ s.Frame t [] [] (fun a => s.i.toNat ≤ a ∧ a ≤ s.i.toNat + x.val) := by
  have hframe : s.Frame (s.storeRegs (x.val + 1)) [] [] (fun a => s.i.toNat ≤ a ∧ a ≤ s.i.toNat + x.val) :=
    State.Frame.storeRegs fun a hlo hhi => ⟨hlo, Nat.le_of_lt_succ hhi⟩
  refine ⟨(s.storeRegs (x.val + 1)).advance, congrArg Host.Outcome.next (State.checked_of_le _ _ hfit), ?_, ?_,
    hframe.advance⟩
  · intro r hr
    rw [State.advance_memRead, State.storeRegs_memRead_reg hm hfit hr]
  · rw [State.advance_pc, State.storeRegs_eq]

/-- Settles O48: the pixel's byte is the stored register, and a bulk store has no events in its frame. -/
theorem bulkStoreSetsPixelsSilently : Obligations.BulkStoreSetsPixelsSilently := by
  intro x r s px py hm hfit hr _ _ haddr
  obtain ⟨t, hexec, hread, -, hframe⟩ := exec_storeRegs_of_fits hm hfit
  have hbyte : t.memRead (pixelAddr px py) = s.readV r := by
    rw [pixelAddr, ← haddr, hread r hr]
  exact ⟨t, hexec, by rw [State.pixel, hbyte, pixelBit], hframe.events List.not_mem_nil⟩

/-- Settles O22: the word that the next step fetches is `V[0] ++ V[1]`, from a state that can fetch it. -/
theorem storedInstructionIsFetchedNext : Obligations.StoredInstructionIsFetchedNext := by
  intro s x j hs hm hcan hdec hx hi hfit hj
  obtain ⟨t, hexec, hread, hpc, hframe⟩ := exec_storeRegs_of_fits hm hfit
  have hrun : t.status = .running := (hframe.status List.not_mem_nil).trans hs
  have hpc' : t.pc.toNat = s.pc.toNat + 2 := by
    rw [hpc, pc_add_two hcan.2.1]
  have hfetch : t.fetch = wordOfBytes (s.readV 0) (s.readV 1) := by
    rw [← hread 0 (Fin.zero_le x), ← hread 1 hx, State.fetch, hpc', ← hi]
    rfl
  have hcan' : t.canFetch := by
    simp only [State.canFetch, layout_programStart, memSize_eq] at *
    omega
  exact ⟨t, (step_of_decode hs hcan hdec).trans hexec, hrun, hpc', step_of_decode hrun hcan' (by rw [hfetch, hj])⟩

end Sys2Proof.Machine
end

section
/-! The decoder, the encoder and the opcode table agree: decoding and encoding undo each other, and a word decodes
exactly when a row of the table covers it. -/

namespace Sys2Proof

/-! ### A word from its fields (R81) -/

/-- The word that has the fields `f`. -/
def Fields.word (f : Fields) : Word := f.op ++ f.x ++ f.y ++ f.n

@[simp] theorem word_fields (w : Word) : (fields w).word = w := (word_eq_fields w).symm

theorem Fields.word_eq_opByte (f : Fields) : f.word = f.op ++ f.x ++ f.nn := by
  apply BitVec.eq_of_toNat_eq
  rw [Fields.word, toNat_nibbles, toNat_opByte, Fields.toNat_nn]
  omega

theorem Fields.word_eq_opAddr (f : Fields) : f.word = f.op ++ f.nnn := by
  apply BitVec.eq_of_toNat_eq
  rw [Fields.word, toNat_nibbles, toNat_opAddr, Fields.toNat_nnn]
  omega

theorem op_opByte (op x : Nibble) (b : Byte) : (fields (op ++ x ++ b)).op = op := by
  rw [fields_opByte]

theorem vx_opByte (op : Nibble) (x : Reg) (b : Byte) : (fields (op ++ regBits x ++ b)).vx = x := by
  rw [fields_opByte, Fields.vx, regOf_regBits]

/-! ### Decoding undoes encoding -/

theorem decode_eq_ok {w : Word} {i : Instr} : decode w = .ok i ↔ opcodeMap (fields w) = some i := by
  unfold decode
  split <;> simp [*]

/-- The opcode map finds in the word of `i` the family of `i`, its selector and its operands (R84, R86). -/
theorem opcodeMap_fields_encode (i : Instr) : opcodeMap (fields (encode i)) = some i := by
  cases i with
  | cls | ret => rfl
  | jp nnn | call nnn | ldI nnn => simp [encode, opcodeMap, op_opAddr, nnn_opAddr]
  | seByte x nn | sneByte x nn | ldByte x nn | addByte x nn | rnd x nn =>
    simp [encode, opcodeMap, op_opByte, vx_opByte, nn_opByte]
  | addI x | storeRegs x | loadRegs x => simp [encode, opcodeMap, familyF, op_opByte, vx_opByte, nn_opByte]
  | _ => rw [encode, fields_nibbles]; rfl

/-! ### Encoding undoes decoding -/

theorem nibble_ofNat_toNat (b : Nibble) : BitVec.ofNat 4 b.toNat = b :=
  (BitVec.ofNat_toNat 4 b).trans (BitVec.setWidth_eq b)

theorem encode_of_family0 {f : Fields} {i : Instr} (hop : f.op = 0x0#4) (h : family0 f = some i) :
    encode i = f.word := by
  rw [Fields.word_eq_opAddr, hop]
  unfold family0 at h
  split_ifs at h with hcls hret
  · cases h; rw [hcls]; rfl
  · cases h; rw [hret]; rfl

theorem encode_of_familyF {f : Fields} {i : Instr} (hop : f.op = 0xF#4) (h : familyF f = some i) :
    encode i = f.word := by
  rw [Fields.word_eq_opByte, hop]
  unfold familyF at h
  split_ifs at h with hadd hstore hload
  · cases h; rw [hadd]; rfl
  · cases h; rw [hstore]; rfl
  · cases h; rw [hload]; rfl

theorem encode_of_family8 {f : Fields} {i : Instr} (hop : f.op = 0x8#4) (h : family8 f = some i) :
    encode i = f.word := by
  rw [Fields.word, hop, ← nibble_ofNat_toNat f.n]
  unfold family8 at h
  split at h
  case h_10 => cases h
  all_goals
    rename f.n.toNat = _ => hn
    cases h
    rw [hn]
    rfl

/-- The opcode map reads every field of the word (R84, R86). -/
theorem encode_of_opcodeMap {f : Fields} {i : Instr} (h : opcodeMap f = some i) : encode i = f.word := by
  unfold opcodeMap at h
  split at h
  case h_1 hop => exact encode_of_family0 (BitVec.eq_of_toNat_eq hop) h
  case h_9 hop => exact encode_of_family8 (BitVec.eq_of_toNat_eq hop) h
  case h_13 hop => exact encode_of_familyF (BitVec.eq_of_toNat_eq hop) h
  case h_14 => cases h
  case h_2 hop | h_3 hop | h_10 hop => -- `1NNN`, `2NNN`, `ANNN`
    rw [Fields.word_eq_opAddr, ← nibble_ofNat_toNat f.op, hop]; cases h; rfl
  case h_4 hop | h_5 hop | h_7 hop | h_8 hop | h_11 hop => -- `3XNN`, `4XNN`, `6XNN`, `7XNN`, `CXNN`
    rw [Fields.word_eq_opByte, ← nibble_ofNat_toNat f.op, hop]; cases h; rfl
  case h_6 hop => -- `5XY0`
    obtain ⟨hn, h⟩ := Option.ite_none_right_eq_some.mp h
    rw [Fields.word, ← nibble_ofNat_toNat f.op, hop, hn]; cases h; rfl
  case h_12 hop => -- `DXYN`
    rw [Fields.word, ← nibble_ofNat_toNat f.op, hop]; cases h; rfl

/-- The encoder and the decoder are inverse to each other. -/
theorem decode_eq_ok_iff_encode_eq {w : Word} {i : Instr} : decode w = .ok i ↔ encode i = w := by
  rw [decode_eq_ok]
  constructor
  · intro h
    rw [encode_of_opcodeMap h, word_fields]
  · rintro rfl
    exact opcodeMap_fields_encode i

end Sys2Proof

namespace Sys2Proof.Laws.InItsRow

theorem every (i : Instr) : Statement i :=
  match i with
  | .cls => cls
  | .ret => ret
  | .jp nnn => jp nnn
  | .call nnn => call nnn
  | .seByte x nn => seByte x nn
  | .sneByte x nn => sneByte x nn
  | .seReg x y => seReg x y
  | .ldByte x nn => ldByte x nn
  | .addByte x nn => addByte x nn
  | .ldReg x y => ldReg x y
  | .orReg x y => orReg x y
  | .andReg x y => andReg x y
  | .xorReg x y => xorReg x y
  | .addReg x y => addReg x y
  | .subReg x y => subReg x y
  | .shr x y => shr x y
  | .subnReg x y => subnReg x y
  | .shl x y => shl x y
  | .ldI nnn => ldI nnn
  | .rnd x nn => rnd x nn
  | .drw x y n => drw x y n
  | .addI x => addI x
  | .storeRegs x => storeRegs x
  | .loadRegs x => loadRegs x

end Sys2Proof.Laws.InItsRow

namespace Sys2Proof

/-! ### Rows of the opcode table (R84, R85)

A mask fixes all fields of a word; or `op`; or `op` and `n`; or all but `x`. -/

theorem OpcodeRow.covers_iff {r : OpcodeRow} {w : Word} : r.covers w = true ↔ w &&& r.mask = r.pattern := beq_iff_eq

theorem and_FFFF (w : Word) : w &&& 0xFFFF#16 = w := BitVec.and_allOnes

theorem fields_of_and_F000 {w p : Word} (h : w &&& 0xF000#16 = p) :
    fields w = { fields w with op := (fields p).op } := by
  rw [← h, word_eq_fields w, and_F000_nibbles]
  simp only [fields_nibbles]

theorem fields_of_and_F00F {w p : Word} (h : w &&& 0xF00F#16 = p) :
    fields w = { fields w with op := (fields p).op, n := (fields p).n } := by
  rw [← h, word_eq_fields w, and_F00F_nibbles]
  simp only [fields_nibbles]

theorem fields_of_and_F0FF {w p : Word} (h : w &&& 0xF0FF#16 = p) :
    fields w = { fields p with x := (fields w).x } := by
  rw [← h, word_eq_fields w, and_F0FF_nibbles]
  simp only [fields_nibbles]

/-- The mnemonic of the instruction that the opcode map finds, if it finds one. -/
def Fields.mnemonic (f : Fields) : Option String := (opcodeMap f).map Instr.mnemonic

/-- Every word of the row has an instruction of the row's mnemonic. -/
def OpcodeRow.Decodes (r : OpcodeRow) : Prop :=
  ∀ w, r.covers w = true → (fields w).mnemonic = some r.mnemonic

theorem OpcodeRow.Decodes.decode_ok {r : OpcodeRow} (hr : r.Decodes) {w : Word} (hw : r.covers w = true) :
    ∃ i, decode w = .ok i ∧ i.mnemonic = r.mnemonic := by
  obtain ⟨i, hi, hm⟩ := Option.map_eq_some_iff.mp (hr w hw)
  exact ⟨i, decode_eq_ok.mpr hi, hm⟩

section
variable {m : String} {p : Word}

theorem OpcodeRow.Decodes.of_mask_FFFF (h : (fields p).mnemonic = some m) :
    OpcodeRow.Decodes ⟨m, 0xFFFF, p⟩ := by
  intro w hw
  obtain rfl : w = p := (and_FFFF w).symm.trans (covers_iff.mp hw)
  exact h

theorem OpcodeRow.Decodes.of_mask_F000 (h : ∀ f : Fields, { f with op := (fields p).op }.mnemonic = some m) :
    OpcodeRow.Decodes ⟨m, 0xF000, p⟩ := by
  intro w hw
  rw [fields_of_and_F000 (covers_iff.mp hw)]
  exact h (fields w)

theorem OpcodeRow.Decodes.of_mask_F00F
    (h : ∀ f : Fields, { f with op := (fields p).op, n := (fields p).n }.mnemonic = some m) :
    OpcodeRow.Decodes ⟨m, 0xF00F, p⟩ := by
  intro w hw
  rw [fields_of_and_F00F (covers_iff.mp hw)]
  exact h (fields w)

theorem OpcodeRow.Decodes.of_mask_F0FF (h : ∀ x, { fields p with x := x }.mnemonic = some m) :
    OpcodeRow.Decodes ⟨m, 0xF0FF, p⟩ := by
  intro w hw
  rw [fields_of_and_F0FF (covers_iff.mp hw)]
  exact h (fields w).x

end

/-- The rows in the table's order, by their masks: under each, the opcode map runs on the fields that are free. -/
theorem opcodeRows_decode {row : OpcodeRow} (hrow : row ∈ opcodeRows) : row.Decodes := by
  simp only [opcodeRows, List.cons_append, List.nil_append, List.mem_cons, List.not_mem_nil, or_false] at hrow
  obtain rfl | rfl | rfl | rfl | rfl | rfl | rfl | rfl | rfl | rfl | rfl | rfl | rfl | rfl | rfl | rfl | rfl | rfl |
    rfl | rfl | rfl | rfl | rfl | rfl := hrow
  iterate 2 exact .of_mask_FFFF rfl
  iterate 4 exact .of_mask_F000 fun _ => rfl
  · exact .of_mask_F00F fun _ => rfl
  iterate 2 exact .of_mask_F000 fun _ => rfl
  iterate 9 exact .of_mask_F00F fun _ => rfl
  iterate 3 exact .of_mask_F000 fun _ => rfl
  iterate 3 exact .of_mask_F0FF (by decide)

/-- Two rows that cover a word agree where both masks look. -/
theorem OpcodeRow.pattern_and_mask {r r' : OpcodeRow} {w : Word} (h : r.covers w = true) (h' : r'.covers w = true) :
    r.pattern &&& r'.mask = r'.pattern &&& r.mask := by
  rw [← covers_iff.mp h, ← covers_iff.mp h', BitVec.and_assoc, BitVec.and_assoc, BitVec.and_comm r.mask]

theorem OpcodeRow.eq_of_mnemonic_eq {r r' : OpcodeRow} (h : r ∈ opcodeRows) (h' : r' ∈ opcodeRows)
    (hm : r.mnemonic = r'.mnemonic) : r = r' := by
  have hnodup : (opcodeRows.map OpcodeRow.mnemonic).Nodup := by decide
  exact List.inj_on_of_nodup_map hnodup h h' hm

/-! ### The decoder and the rows -/

theorem covered_of_decode_ok {w : Word} {i : Instr} (h : decode w = .ok i) :
    ∃ row, row ∈ opcodeRows ∧ row.covers w = true ∧ row.mnemonic = i.mnemonic := by
  obtain ⟨row, hrow, hm, hw⟩ := Laws.InItsRow.every i
  exact ⟨row, hrow, decode_eq_ok_iff_encode_eq.mp h ▸ hw, hm⟩

theorem decode_of_not_covered {w : Word} (h : ∀ row, row ∈ opcodeRows → row.covers w = false) :
    decode w = .error (.decodeFatal w) := by
  cases hd : decode w with
  | ok i =>
    obtain ⟨row, hrow, hw, -⟩ := covered_of_decode_ok hd
    rw [h row hrow] at hw
    cases hw
  | error r => rw [Machine.decode_error hd]

theorem OpcodeRow.eq_of_covers {w : Word} {r r' : OpcodeRow} (hr : r ∈ opcodeRows) (hr' : r' ∈ opcodeRows)
    (hw : r.covers w = true) (hw' : r'.covers w = true) : r = r' := by
  have hm := (opcodeRows_decode hr w hw).symm.trans (opcodeRows_decode hr' w hw')
  exact OpcodeRow.eq_of_mnemonic_eq hr hr' (Option.some.inj hm)

/-- A row of an unimplemented opcode meets a row of the table only at the word of CLS or RET. -/
theorem unimplementedRows_meet_only_cls_ret : ∀ r ∈ unimplementedRows, ∀ r' ∈ opcodeRows,
    r.pattern &&& r'.mask = r'.pattern &&& r.mask →
    r'.mask = 0xFFFF#16 ∧ (r'.pattern = 0x00E0#16 ∨ r'.pattern = 0x00EE#16) := by decide

end Sys2Proof

namespace Sys2Proof.Machine

/-- Settles O5: the opcode map finds the family and the operands of an encoded instruction. -/
theorem decodeOfEncodeIsTheInstruction : Obligations.DecodeOfEncodeIsTheInstruction :=
  fun _ => decode_eq_ok_iff_encode_eq.mpr rfl

/-- Settles O6: the instruction found by the opcode map is put together from all the fields of the word. -/
theorem encodeOfDecodeIsTheWord : Obligations.EncodeOfDecodeIsTheWord :=
  fun _ _ => decode_eq_ok_iff_encode_eq.mp

/-- Settles O7: a row covers the words that decode to its mnemonic, and no mnemonic stands in two rows. -/
theorem decodeFollowsTheOpcodeTable : Obligations.DecodeFollowsTheOpcodeTable :=
  ⟨rfl, fun _ _ => covered_of_decode_ok, fun _ _ hrow => (opcodeRows_decode hrow).decode_ok,
    fun _ => decode_of_not_covered, fun _ _ _ => OpcodeRow.eq_of_covers⟩

/-- Settles O8: a word that such an opcode shares with the table is that of CLS or of RET, where the masks leave no
bit free. -/
theorem unimplementedOpcodesAreFatal : Obligations.UnimplementedOpcodesAreFatal := by
  refine ⟨rfl, fun w row hrow hw hcls hret => decode_of_not_covered fun row' hrow' => ?_⟩
  by_contra hcov
  have hw' := Bool.eq_true_of_not_eq_false hcov
  have hmeet := OpcodeRow.pattern_and_mask hw hw'
  obtain ⟨hmask, hpattern⟩ := unimplementedRows_meet_only_cls_ret row hrow row' hrow' hmeet
  have hword : w = row'.pattern := by rw [← OpcodeRow.covers_iff.mp hw', hmask, and_FFFF]
  rw [← hword] at hpattern
  exact hpattern.elim hcls hret

/-- Settles O9: the decoder is run on each word. -/
theorem writtenOutWordsDecode : Obligations.WrittenOutWordsDecode :=
  ⟨rfl, rfl, rfl, rfl, rfl, rfl, rfl, rfl⟩

end Sys2Proof.Machine
end

section
/-! Program-counter control: the step around an instruction (status, fetch checks, a FATAL word), the exact next states
of jump, call, return and skip, and a call followed by its return. -/

namespace Sys2Proof.Machine

/-! ### The step (R100 to R106) -/

theorem run_succ_of_step {M : Host.Core} {s t : M.State} (h : M.step s = .next t) (k : Nat) :
    M.run (k + 1) s = M.run k t := by
  rw [Host.Core.run, h]

/-- Settles O11: each of the steps answers the state it is asked of. -/
theorem stoppedMachineNeverChanges : Obligations.StoppedMachineNeverChanges := by
  intro s hs k
  induction k with
  | zero => rfl
  | succ k ih => exact (run_succ_of_step (M := Sys2Proof.core) (step_of_stopped hs) k).trans ih

section
variable {s : State}

theorem State.fetchFault_of_outOfRange
    (h : s.pc.toNat < layout.programStart ∨ s.pc.toNat > Config.memSize - 2) :
    s.fetchFault = some (.fetchOutOfRange s.pc) := by
  have hrange : s.pc.toNat < layout.programStart ∨ Config.memSize < s.pc.toNat + 2 := by omega
  rw [State.fetchFault, if_pos hrange]

theorem State.fetchFault_of_misaligned (hlo : layout.programStart ≤ s.pc.toNat)
    (hhi : s.pc.toNat ≤ Config.memSize - 2) (hodd : s.pc.toNat % 2 = 1) :
    s.fetchFault = some (.fetchMisaligned s.pc) := by
  have hrange : ¬ (s.pc.toNat < layout.programStart ∨ Config.memSize < s.pc.toNat + 2) := by
    rw [memSize_eq] at *
    omega
  rw [State.fetchFault, if_neg hrange, if_pos (by omega)]

theorem step_of_fetchFault {d : Diagnostic} (hs : s.status = .running) (h : s.fetchFault = some d) :
    step s = .next (s.raise d) := by
  rw [step_of_running hs, h]

theorem step_of_decode_error {r : Reject} (hs : s.status = .running) (hcan : s.canFetch)
    (hdec : decode s.fetch = .error r) : step s = .next (s.raise (.decodeFatal s.pc s.fetch)) := by
  rw [step_of_running hs, State.fetchFault_eq_none.mpr hcan]
  simp only [hdec, State.rejected]

end

/-- Settles O10: with both fetch checks passed, what is left of the step is the decoded instruction. -/
theorem stepRunsTheDecodedInstruction : Obligations.StepRunsTheDecodedInstruction :=
  fun _ _ => step_of_decode

/-- Settles O12: the first check that applies gives the diagnostic, and a raise changes the status alone. -/
theorem fetchChecksFault : Obligations.FetchChecksFault :=
  fun _ hs => ⟨fun hout => step_of_fetchFault hs (State.fetchFault_of_outOfRange hout),
    fun hlo hhi hodd => step_of_fetchFault hs (State.fetchFault_of_misaligned hlo hhi hodd)⟩

/-- Settles O13: a word that no row covers does not decode. -/
theorem fatalWordStopsTheRun : Obligations.FatalWordStopsTheRun :=
  fun _ hs hcan hrows => step_of_decode_error hs hcan (decode_of_not_covered hrows)

/-! ### Skips (R116 to R119) -/

/-- The end of a skip, its condition read as a proposition. -/
theorem State.skipIf_eq_setPc (s : State) {c : Bool} {p : Prop} [Decidable p] (h : c = true ↔ p) :
    s.skipIf c = s.setPc (if p then s.pc + 4 else s.pc + 2) := by
  unfold State.skipIf
  by_cases hp : p
  · rw [if_pos (h.mpr hp), if_pos hp]
  · rw [if_neg fun hc => hp (h.mp hc), if_neg hp, State.advance]

section
variable (x y : Reg) (nn : Byte) (s : State)

theorem exec_seByte : exec (.seByte x nn) s = .next (s.setPc (s.nextPc (.seByte x nn))) :=
  congrArg Host.Outcome.next (s.skipIf_eq_setPc beq_iff_eq)

theorem exec_sneByte : exec (.sneByte x nn) s = .next (s.setPc (s.nextPc (.sneByte x nn))) :=
  congrArg Host.Outcome.next (s.skipIf_eq_setPc bne_iff_ne)

theorem exec_seReg : exec (.seReg x y) s = .next (s.setPc (s.nextPc (.seReg x y))) :=
  congrArg Host.Outcome.next (s.skipIf_eq_setPc beq_iff_eq)

end

theorem exec_of_skips {s : State} {i : Instr} (h : skips s i) : exec i s = .next (s.setPc (s.pc + 4)) := by
  rw [← State.nextPc_of_skips h]
  cases i with
  | seByte x nn => exact exec_seByte x nn s
  | sneByte x nn => exact exec_sneByte x nn s
  | seReg x y => exact exec_seReg x y s
  | _ => exact h.elim

/-- Settles O21: the word passed over is not read, and from 0xFFC and 0xFFE a skip leaves `PC` at 0x1000 or 0x1002,
past the last fetch address. -/
theorem skipPassesOverTheNextWord : Obligations.SkipPassesOverTheNextWord := by
  intro s i h
  refine ⟨exec_of_skips h, fun hpc hs => ?_⟩
  have hout : (s.pc + 4).toNat > Config.memSize - 2 := by
    obtain hpc | hpc := hpc
    · rw [hpc]; decide
    · rw [hpc]; decide
  exact (fetchChecksFault (s.setPc (s.pc + 4)) hs).1 (.inr hout)

/-- Only `n = 0` is an instruction of family 5 (R86, R118). -/
theorem decode_family5_ne_ok (x y : Reg) {n : Nibble} (hn : n ≠ 0x0#4) (i : Instr) :
    decode (0x5#4 ++ regBits x ++ regBits y ++ n) ≠ .ok i := by
  intro h
  rw [decode_eq_ok, fields_nibbles] at h
  exact hn (Option.ite_none_right_eq_some.mp h).1

/-- Settles O35: the words are those of the encoder, and the effects are the values of `nextPc`. -/
theorem skipsCompareAndSkip : Obligations.SkipsCompareAndSkip := by
  intro x y nn s
  refine ⟨decode_eq_ok_iff_encode_eq.mpr (ofNat_opByte 0x3#4 x nn).symm,
    decode_eq_ok_iff_encode_eq.mpr (ofNat_opByte 0x4#4 x nn).symm,
    decode_eq_ok_iff_encode_eq.mpr (ofNat_nibbles 0x5#4 x y 0x0#4).symm, ?_,
    exec_seByte x nn s, exec_sneByte x nn s, exec_seReg x y s⟩
  intro n hpos hlt i
  have hval : (BitVec.ofNat 4 n).toNat = n := by
    rw [BitVec.toNat_ofNat, Nat.mod_eq_of_lt hlt]
  have hn : BitVec.ofNat 4 n ≠ 0x0#4 := fun h => by
    rw [h] at hval
    exact hpos.ne hval
  have hword := ofNat_nibbles 0x5#4 x y (BitVec.ofNat 4 n)
  rw [hval] at hword
  exact fun h => decode_family5_ne_ok x y hn i (hword ▸ h)

/-! ### Jump (R108, R109) -/

theorem zextPc_eq_ofNat (nnn : Addr12) : zextPc nnn = BitVec.ofNat Config.widthPc nnn.toNat :=
  (BitVec.ofNat_toNat _ _).symm

section
variable {nnn : Addr12} {s : State}

theorem zextPc_eq_iff {pc : ProgCounter} : zextPc nnn = pc ↔ nnn.toNat = pc.toNat := by
  rw [← BitVec.toNat_inj, zextPc_toNat]

theorem exec_jp_self (h : nnn.toNat = s.pc.toNat) : exec (.jp nnn) s = .next s.halt :=
  if_pos (zextPc_eq_iff.mpr h)

theorem exec_jp_other (h : nnn.toNat ≠ s.pc.toNat) : exec (.jp nnn) s = .next (s.setPc (zextPc nnn)) :=
  if_neg (zextPc_eq_iff.not.mpr h)

end

/-- Settles O31: `PC` holds the target unchecked, so that the fetch checks of the next step apply to it. -/
theorem jumpGoesToItsTargetOrHalts : Obligations.JumpGoesToItsTargetOrHalts := by
  intro nnn s
  rw [← zextPc_eq_ofNat]
  have hpc : (s.setPc (zextPc nnn)).pc.toNat = nnn.toNat := zextPc_toNat nnn
  have hfetch := fetchChecksFault (s.setPc (zextPc nnn))
  rw [hpc] at hfetch
  refine ⟨decode_eq_ok_iff_encode_eq.mpr (ofNat_opAddr 0x1#4 nnn).symm, exec_jp_self, exec_jp_other, ?_, ?_⟩
  · intro hs hbad
    exact (hfetch hs).1 (hbad.imp_right fun hlast => by rw [hlast]; decide)
  · intro hs hlo hhi hodd
    exact (hfetch hs).2 hlo (by omega) hodd

/-! ### Call and return (R110 to R115) -/

section
variable {nnn : Addr12} {s : State}

theorem exec_call_overflow (h : s.sp.toNat < layout.stackStart + 2) :
    exec (.call nnn) s = .next (s.raise (.stackOverflow s.pc s.sp)) := if_pos h

/-- With `SP` inside its interval the two bytes below it exist (R25, R58). -/
theorem exec_call_of_room (hlo : layout.stackStart + 2 ≤ s.sp.toNat) (hhi : s.sp.toNat ≤ layout.stackEnd) :
    exec (.call nnn) s = .next ((s.push (s.pc + 2)).setPc (zextPc nnn)) := by
  have hfit : s.sp.toNat - 2 + 2 ≤ Config.memSize := by
    rw [layout_stackEnd] at hhi
    rw [memSize_eq]
    omega
  rw [exec, execCall, if_neg (by omega), State.checked_of_le _ _ hfit]

theorem exec_ret_underflow (h : s.sp.toNat + 2 > layout.stackEnd) :
    exec .ret s = .next (s.raise (.stackUnderflow s.pc s.sp)) := if_pos h

theorem exec_ret_of_entry (h : s.sp.toNat + 2 ≤ layout.stackEnd) :
    exec .ret s = .next ((s.setPc s.top).setSp (s.sp + 2)) := if_neg (by omega)

/-- A return finds at the top of the stack what the call pushed (R112, R114). -/
theorem State.top_push (ra : Word) (hm : Memory.wf s.memory = true) (h2 : 2 ≤ s.sp.toNat)
    (hfit : s.sp.toNat ≤ Config.memSize) : (s.push ra).top = ra := by
  obtain ⟨hhigh, hlow⟩ := State.push_top ra hm h2 hfit
  rw [State.top, State.memRead2, State.push_sp, sp_sub_two h2, show s.sp.toNat - 2 + 1 = s.sp.toNat - 1 by omega,
    hhigh, hlow, wordOfBytes_high_low]

end

/-- Settles O32: the overflow check comes first, and the two bytes at the new `SP` are those of the return address. -/
theorem callPushesTheReturnAddress : Obligations.CallPushesTheReturnAddress := by
  intro nnn s
  refine ⟨decode_eq_ok_iff_encode_eq.mpr (ofNat_opAddr 0x2#4 nnn).symm, exec_call_overflow, fun hm hlo hhi => ?_⟩
  have h2 : 2 ≤ s.sp.toNat := by omega
  have hfit : s.sp.toNat ≤ Config.memSize := hhi.trans (by decide)
  have hsp : (s.sp - 2).toNat = s.sp.toNat - 2 := sp_sub_two h2
  obtain ⟨hhigh, hlow⟩ := State.push_top (s.pc + 2) hm h2 hfit
  refine ⟨_, exec_call_of_room hlo hhi, hsp, zextPc_toNat nnn, ?_, ?_, ?_⟩
  · rw [State.setPc_sp, State.push_sp, hsp, State.setPc_memRead, hhigh, highByte_toNat]
  · rw [State.setPc_sp, State.push_sp, hsp, show s.sp.toNat - 2 + 1 = s.sp.toNat - 1 by omega, State.setPc_memRead,
      hlow, lowByte_toNat]
  · refine (State.Frame.push (List.mem_singleton_self _) h2 (fun a hle hlt => ?_) _).setPc _
    rw [State.setPc_sp, State.push_sp, hsp]
    omega

/-- Settles O33: the check reads `SP` alone, and the popped word is the one at `SP`, high byte first. -/
theorem returnPopsTheReturnAddress : Obligations.ReturnPopsTheReturnAddress := by
  refine ⟨rfl, fun s => ⟨exec_ret_underflow, fun hentry => ?_⟩⟩
  have hframe : s.Frame ((s.setPc s.top).setSp (s.sp + 2)) [] [.sp] (fun _ => False) :=
    ((State.Frame.refl s [] [.sp] _).setPc _).setSp (List.mem_singleton_self _) _
  exact ⟨_, exec_ret_of_entry hentry, wordOfBytes_toNat _ _, sp_add_two hentry, rfl, hframe⟩

/-! ### A call and its return -/

section
variable {s : State} {w : ProgCounter} (ra : Word)

/-- A fetch from an address apart from the two pushed bytes reads the word that stood there before the push. -/
theorem State.fetch_push_apart (h2 : 2 ≤ s.sp.toNat)
    (hapart : w.toNat + 1 < s.sp.toNat - 2 ∨ s.sp.toNat ≤ w.toNat) :
    ((s.push ra).setPc w).fetch = s.memRead2 w.toNat := by
  rw [State.fetch, State.setPc_pc, State.setPc_memRead2, State.memRead2, State.memRead2,
    State.push_memRead_outside s ra h2 (by omega), State.push_memRead_outside s ra h2 (by omega)]

/-- A return right after a push goes to the pushed address and takes `SP` back. -/
theorem exec_ret_of_push (hm : Memory.wf s.memory = true) (h2 : 2 ≤ s.sp.toNat)
    (hhi : s.sp.toNat ≤ layout.stackEnd) :
    exec .ret ((s.push ra).setPc w) = .next (((s.push ra).setPc ra).setSp s.sp) := by
  have hentry : (s.sp - 2).toNat + 2 ≤ layout.stackEnd := by
    rw [sp_sub_two h2]
    omega
  have htop : ((s.push ra).setPc w).top = ra := State.top_push ra hm h2 (hhi.trans (by decide))
  have hsp : ((s.push ra).setPc w).sp + 2 = s.sp := BitVec.sub_add_cancel s.sp 2
  rw [exec_ret_of_entry hentry, htop, hsp]
  rfl

/-- Once `SP` has its old value again, it is no longer among the items that changed. -/
theorem State.Frame.restoreSp {t : State} {regs : List Reg} {stored : Nat → Prop} (h : s.Frame t regs [.sp] stored) :
    s.Frame (t.setSp s.sp) regs [] stored where
  v := h.v
  i _ := h.i (by decide)
  sp _ := rfl
  rngSeed _ := h.rngSeed (by decide)
  events _ := h.events (by decide)
  status _ := h.status (by decide)
  usedMemoryLen := h.usedMemoryLen
  memory := h.memory

end

/-- Settles O34: the push leaves the `00EE` at the target as it was, and the `00EE` pops what was pushed. -/
theorem callThenReturnComesBack : Obligations.CallThenReturnComesBack := by
  intro s nnn hs hm hcan hlo hhi hcall hnlo hnhi hneven hapart hret
  have h2 : 2 ≤ s.sp.toNat := by omega
  rw [← zextPc_toNat nnn] at hnlo hnhi hneven hapart hret
  have hstepCall : step s = .next ((s.push (s.pc + 2)).setPc (zextPc nnn)) :=
    (step_of_decode hs hcan hcall).trans (exec_call_of_room hlo hhi)
  have hdec : decode ((s.push (s.pc + 2)).setPc (zextPc nnn)).fetch = .ok .ret :=
    (congrArg decode (State.fetch_push_apart (s.pc + 2) h2 hapart)).trans hret
  have hstepRet : step ((s.push (s.pc + 2)).setPc (zextPc nnn)) =
      .next (((s.push (s.pc + 2)).setPc (s.pc + 2)).setSp s.sp) :=
    (step_of_decode (s := (s.push (s.pc + 2)).setPc (zextPc nnn)) hs ⟨hnlo, hnhi, hneven⟩ hdec).trans
      (exec_ret_of_push (s.pc + 2) hm h2 hhi)
  have hrun := (run_succ_of_step (M := Sys2Proof.core) hstepCall 1).trans (run_succ_of_step hstepRet 0)
  have hpush : s.Frame (s.push (s.pc + 2)) [] [.sp] (fun a => a = s.sp.toNat - 2 ∨ a = s.sp.toNat - 1) :=
    State.Frame.push (List.mem_singleton_self _) h2 (by omega) _
  obtain ⟨hhigh, hlow⟩ := State.push_top (s.pc + 2) hm h2 (hhi.trans (by decide))
  refine ⟨_, hrun, pc_add_two hcan.2.1, rfl, ?_, (hpush.setPc _).restoreSp⟩
  rw [State.setSp_memRead, State.setSp_memRead, State.setPc_memRead, State.setPc_memRead, hhigh, hlow,
    wordOfBytes_high_low]

end Sys2Proof.Machine
end

section
/-! The generator: it is three maps of one kind, each a value xored with a shift of itself. The bits such a shift leaves
empty are bits of the value itself, and from them the others follow one by one (R152, R153). -/

namespace Sys2Proof.Machine

/-- A word xored with itself moved up by `k` bits. -/
def xorShl {w : Nat} (k : Nat) (x : BitVec w) : BitVec w := x ^^^ x <<< k

/-- A word xored with itself moved down by `k` bits. -/
def xorShr {w : Nat} (k : Nat) (x : BitVec w) : BitVec w := x ^^^ x >>> k

theorem nextRandom_eq_comp :
    nextRandom = xorShl Config.rngShiftC ∘ xorShr Config.rngShiftB ∘ xorShl Config.rngShiftA := rfl

section
variable {w : Nat} (k : Nat)

theorem xorShl_toNat (x : BitVec w) : (xorShl k x).toNat = x.toNat ^^^ (x.toNat * 2 ^ k % 2 ^ w) := by
  rw [xorShl, BitVec.toNat_xor, BitVec.toNat_shiftLeft, Nat.shiftLeft_eq]

theorem xorShr_toNat (x : BitVec w) : (xorShr k x).toNat = x.toNat ^^^ (x.toNat / 2 ^ k) := by
  rw [xorShr, BitVec.toNat_xor, BitVec.toNat_ushiftRight, Nat.shiftRight_eq_div_pow]

end

/-- A sequence of bits is known from its xor with itself moved by `k` places: bit `i` is masked by bit `i - k` alone. -/
theorem bits_eq_of_xor_moved_eq {f g : Nat → Bool} {w k : Nat} (hk : 0 < k)
    (h : ∀ i < w, (f i ^^ (!decide (i < k) && f (i - k))) = (g i ^^ (!decide (i < k) && g (i - k)))) :
    ∀ i < w, f i = g i := by
  intro i
  induction i using Nat.strong_induction_on with
  | _ i ih =>
    intro hi
    have hbit := h i hi
    by_cases hlt : i < k
    · simpa [hlt] using hbit
    · have hearlier : f (i - k) = g (i - k) := ih (i - k) (by omega) (by omega)
      simpa [hlt, hearlier] using hbit

/-- The low `k` bits are left as they are, and each higher bit follows from lower ones. -/
theorem xorShl_injective {w k : Nat} (hk : 0 < k) : Function.Injective (xorShl (w := w) k) := by
  intro x y hxy
  refine BitVec.eq_of_getLsbD_eq (bits_eq_of_xor_moved_eq hk fun i hi => ?_)
  simpa only [xorShl, BitVec.getLsbD_xor, BitVec.getLsbD_shiftLeft, hi, decide_true, Bool.true_and]
    using congrArg (BitVec.getLsbD · i) hxy

/-- The high `k` bits are left as they are, and each lower bit follows from higher ones. -/
theorem xorShr_injective {w k : Nat} (hk : 0 < k) : Function.Injective (xorShr (w := w) k) := by
  intro x y hxy
  refine BitVec.eq_of_getMsbD_eq (bits_eq_of_xor_moved_eq hk fun i hi => ?_)
  simpa only [xorShr, BitVec.getMsbD_xor, BitVec.getMsbD_ushiftRight, hi, decide_true, Bool.true_and]
    using congrArg (BitVec.getMsbD · i) hxy

theorem nextRandom_injective : Function.Injective nextRandom :=
  (xorShl_injective (by decide)).comp ((xorShr_injective (by decide)).comp (xorShl_injective (by decide)))

/-- Settles O42: the generator is a composition of three injective maps; the four values are evaluated. -/
theorem generatorNeverMergesStates : Obligations.GeneratorNeverMergesStates :=
  ⟨by decide, by decide, by decide, by decide, nextRandom_injective⟩

/-- Settles O41: each of the three maps, read on natural numbers. -/
theorem generatorIsXorshift64 : Obligations.GeneratorIsXorshift64 := by
  intro s s1 s2
  have h1 : (xorShl Config.rngShiftA s).toNat = s1 := xorShl_toNat _ s
  have h2 : (xorShr Config.rngShiftB (xorShl Config.rngShiftA s)).toNat = s2 := by
    rw [xorShr_toNat, h1]
    rfl
  rw [nextRandom_eq_comp, Function.comp_apply, Function.comp_apply, xorShl_toNat, h2]
  rfl

end Sys2Proof.Machine
end

section
/-! The instructions of 41_alu.md: the words of family 8, the values computed as numbers, and the two shapes an ALU
instruction has, one register write or a result with a flag. -/

namespace Sys2Proof

theorem decode_ofNat_family8 {i : Instr} (x y : Reg) (n : Nibble)
    (h : encode i = 0x8#4 ++ regBits x ++ regBits y ++ n) :
    decode (BitVec.ofNat 16 (0x8000 + n.toNat + x.val * 0x100 + y.val * 0x10)) = .ok i := by
  have hsum : 0x8000 + n.toNat + x.val * 0x100 + y.val * 0x10 =
      (0x8#4).toNat * 0x1000 + x.val * 0x100 + y.val * 0x10 + n.toNat := by
    rw [show (0x8#4).toNat * 0x1000 = 0x8000 from rfl]
    omega
  rw [decode_eq_ok_iff_encode_eq, h, hsum, ofNat_nibbles]

end Sys2Proof

namespace Sys2Proof.Machine

/-! ### Results and flags as numbers -/

section
variable (a b : Byte)

theorem sum8_toNat : (sum8 a b).toNat = (a.toNat + b.toNat) % 256 := BitVec.toNat_ofNat _ _

theorem diff8_toNat :
    (diff8 a b).toNat = if a.toNat ≥ b.toNat then a.toNat - b.toNat else a.toNat + 256 - b.toNat := by
  have ha := a.isLt
  have hb := b.isLt
  rw [diff8, BitVec.toNat_ofNat]
  split <;> omega

theorem shr1_toNat : (shr1 a).toNat = a.toNat / 2 := by
  rw [shr1, BitVec.toNat_ushiftRight, Nat.shiftRight_eq_div_pow, Nat.pow_one]

theorem shl1_toNat : (shl1 a).toNat = a.toNat * 2 % 256 := by
  rw [shl1, BitVec.toNat_shiftLeft, Nat.shiftLeft_eq, Nat.pow_one]

theorem flagByte_decide (p : Prop) [Decidable p] : flagByte (decide p) = if p then 1 else 0 :=
  if_congr decide_eq_true_iff rfl rfl

theorem lowBit_toNat : (lowBit a).toNat = a.toNat % 2 := by
  rw [lowBit, BitVec.toNat_and, show BitVec.toNat (1 : Byte) = 1 from rfl, Nat.and_one_is_mod]

theorem highBit_toNat : (highBit a).toNat = a.toNat / 128 := by
  have ha := a.isLt
  rw [highBit, BitVec.toNat_and, show BitVec.toNat (1 : Byte) = 1 from rfl, Nat.and_one_is_mod,
    BitVec.toNat_ushiftRight, Nat.shiftRight_eq_div_pow]
  omega

/-- `8F06` shifts its own flag out (R148). -/
theorem shr1_lowBit : shr1 (lowBit a) = 0 := by
  apply BitVec.eq_of_toNat_eq
  rw [shr1_toNat, lowBit_toNat, show BitVec.toNat (0 : Byte) = 0 from rfl]
  omega

/-- `8F0E` doubles its own flag (R150). -/
theorem shl1_highBit_toNat : (shl1 (highBit a)).toNat = if a.toNat ≥ 128 then 2 else 0 := by
  have ha := a.isLt
  rw [shl1_toNat, highBit_toNat]
  split <;> omega

theorem randomByte_toNat (r : Seed) : (randomByte r).toNat = r.toNat % 256 := BitVec.toNat_setWidth _ _

end

/-! ### One register write -/

theorem State.setsReg_writeV_advance (s : State) (x : Reg) (b : Byte) : s.setsReg (s.writeV x b).advance x b := by
  refine ⟨?_, rfl, ((State.Frame.refl s [x] [] _).writeV (List.mem_singleton_self x) b).advance⟩
  rw [State.advance_readV, State.readV_writeV, if_pos rfl]

/-- Settles O36: each is one register write and the advance of `PC`. -/
theorem loadAndAddImmediate : Obligations.LoadAndAddImmediate := by
  intro x nn s
  refine ⟨decode_eq_ok_iff_encode_eq.mpr (ofNat_opByte 0x6#4 x nn).symm,
    decode_eq_ok_iff_encode_eq.mpr (ofNat_opByte 0x7#4 x nn).symm,
    ⟨_, rfl, s.setsReg_writeV_advance x nn⟩, ⟨_, rfl, ?_⟩⟩
  rw [← sum8_toNat, BitVec.ofNat_toNat, BitVec.setWidth_eq]
  exact s.setsReg_writeV_advance x _

/-- Settles O37: each is one register write and the advance of `PC`. -/
theorem assignAndLogic : Obligations.AssignAndLogic := fun x y s =>
  ⟨decode_ofNat_family8 x y 0x0#4 rfl, decode_ofNat_family8 x y 0x1#4 rfl, decode_ofNat_family8 x y 0x2#4 rfl,
    decode_ofNat_family8 x y 0x3#4 rfl, ⟨_, rfl, s.setsReg_writeV_advance x _⟩,
    ⟨_, rfl, s.setsReg_writeV_advance x _⟩, ⟨_, rfl, s.setsReg_writeV_advance x _⟩,
    ⟨_, rfl, s.setsReg_writeV_advance x _⟩⟩

/-- Settles O43: the register write takes the low byte of the state that the step of the generator gives. -/
theorem rndMasksTheNextRandomByte : Obligations.RndMasksTheNextRandomByte := by
  intro x nn s
  refine ⟨decode_eq_ok_iff_encode_eq.mpr (ofNat_opByte 0xC#4 x nn).symm, _, rfl, rfl, ?_, rfl,
    exec_frame (i := .rnd x nn) rfl⟩
  rw [State.advance_readV, State.readV_writeV, if_pos rfl, BitVec.toNat_and, randomByte_toNat]

/-! ### A result with a flag -/

/-- `t` is `s` after an instruction whose whole effect is a result in `V[x]` and a flag in `VF` (and `PC <- pc + 2`);
with `x = 15` the value called the flag is the one that stays. -/
structure State.SetsRegAndFlag (s t : State) (x : Reg) (result flag : Byte) : Prop where
  result : x ≠ VF → t.readV x = result
  flag : t.readV VF = flag
  pc : t.pc = s.pc + 2
  frame : s.Frame t [x, VF] [] (fun _ => False)

theorem State.setsRegAndFlag_writeWithFlag (s : State) (x : Reg) (result flag : Byte) :
    s.SetsRegAndFlag (s.writeWithFlag flagLast x result flag).advance x result flag where
  result hx := by rw [State.advance_readV, State.writeWithFlag_readV, if_neg hx, if_pos rfl]
  flag := by rw [State.advance_readV, State.writeWithFlag_readV, if_pos rfl]
  pc := by rw [State.advance_pc, State.writeWithFlag_eq]
  frame := ((State.Frame.refl s [x, VF] [] _).writeWithFlag (by simp) (by simp) _ _ _).advance

/-- With `x = 15` the shifted value is the flag itself (R148, R150). -/
theorem State.setsRegAndFlag_shiftWithFlag (s : State) (x : Reg) (out shift : Byte → Byte) :
    s.SetsRegAndFlag (s.shiftWithFlag shiftReadsUpdated x out shift).advance x (shift (s.readV x))
      (if x = VF then shift (out (s.readV x)) else out (s.readV x)) where
  result hx := by rw [State.advance_readV, State.shiftWithFlag_readV, if_pos rfl, if_neg hx]
  flag := by
    rw [State.advance_readV, State.shiftWithFlag_readV]
    by_cases hx : x = VF
    · rw [if_pos hx.symm, if_pos hx, if_pos hx]
    · rw [if_neg (Ne.symm hx), if_pos rfl, if_neg hx]
  pc := rfl
  frame := ((State.Frame.refl s [x, VF] [] _).shiftWithFlag (by simp) (by simp) _ _ _).advance

/-- Settles O38: the flag is the carry of the operands as they were before the write of the sum. -/
theorem addSetsCarry : Obligations.AddSetsCarry := by
  intro x y s
  have h := s.setsRegAndFlag_writeWithFlag x (sum8 (s.readV x) (s.readV y)) (carry (s.readV x) (s.readV y))
  refine ⟨decode_ofNat_family8 x y 0x4#4 rfl, _, rfl, fun hx => ?_, ?_, h.pc, h.frame⟩
  · rw [h.result hx, sum8_toNat]
  · rw [h.flag]
    exact flagByte_decide _

/-- A subtraction leaves the true difference, or 256 more, and whether it needed no borrow (R147, R149). -/
theorem State.SetsRegAndFlag.difference {s t : State} {x : Reg} {a b : Byte}
    (h : s.SetsRegAndFlag t x (diff8 a b) (notBorrow a b)) :
    (x ≠ VF → (t.readV x).toNat = if a.toNat ≥ b.toNat then a.toNat - b.toNat else a.toNat + 256 - b.toNat) ∧
      t.readV VF = (if a.toNat ≥ b.toNat then 1 else 0) ∧ t.pc = s.pc + 2 ∧
      s.Frame t [x, VF] [] (fun _ => False) := by
  refine ⟨fun hx => ?_, ?_, h.pc, h.frame⟩
  · rw [h.result hx, diff8_toNat]
  · rw [h.flag]
    exact flagByte_decide _

/-- Settles O39: the two subtractions are one operation with its operands in the two orders. -/
theorem subtractionsSetNotBorrow : Obligations.SubtractionsSetNotBorrow := by
  intro x y s a b
  exact ⟨decode_ofNat_family8 x y 0x5#4 rfl, decode_ofNat_family8 x y 0x7#4 rfl,
    ⟨_, rfl, (s.setsRegAndFlag_writeWithFlag x _ _).difference⟩,
    ⟨_, rfl, (s.setsRegAndFlag_writeWithFlag x _ _).difference⟩⟩

/-- Settles O40: a shift of `V[x]`, and with `x = 15` of the bit that was shifted out. -/
theorem shiftsMoveTheOuterBitToVF : Obligations.ShiftsMoveTheOuterBitToVF := by
  intro x y s a
  have hr := s.setsRegAndFlag_shiftWithFlag x lowBit shr1
  have hl := s.setsRegAndFlag_shiftWithFlag x highBit shl1
  refine ⟨decode_ofNat_family8 x y 0x6#4 rfl, decode_ofNat_family8 x y 0xE#4 rfl,
    ⟨_, rfl, fun hx => ⟨?_, ?_⟩, fun hx => ?_, hr.pc, hr.frame⟩,
    ⟨_, rfl, fun hx => ⟨?_, ?_⟩, fun hx => ?_, hl.pc, hl.frame⟩⟩
  · rw [hr.result hx, shr1_toNat]
  · rw [hr.flag, if_neg hx, lowBit_toNat]
  · rw [hr.flag, if_pos hx, shr1_lowBit]
  · rw [hl.result hx, shl1_toNat]
  · rw [hl.flag, if_neg hx, highBit_toNat]
  · rw [hl.flag, if_pos hx, shl1_highBit_toNat]

end Sys2Proof.Machine
end

section
/-! The address register and the bulk transfers of 42_load_store.md: the words of family F, what a transfer past the end
of memory and a load that fits do, and a load after the store that it undoes. -/

namespace Sys2Proof

theorem decode_ofNat_familyF {i : Instr} (x : Reg) (b : Byte) (h : encode i = 0xF#4 ++ regBits x ++ b) :
    decode (BitVec.ofNat 16 (0xF000 + b.toNat + x.val * 0x100)) = .ok i := by
  have hsum : 0xF000 + b.toNat + x.val * 0x100 = (0xF#4).toNat * 0x1000 + x.val * 0x100 + b.toNat :=
    Nat.add_right_comm _ _ _
  rw [decode_eq_ok_iff_encode_eq, h, hsum, ofNat_opByte]

end Sys2Proof

namespace Sys2Proof.Machine

/-! ### The address register (R180, R181) -/

/-- Settles O44: each is one write of `I`, which is all of its frame, and the advance of `PC`. -/
theorem addressRegisterIsSetAndAddedTo : Obligations.AddressRegisterIsSetAndAddedTo := fun nnn x s =>
  ⟨decode_eq_ok_iff_encode_eq.mpr (ofNat_opAddr 0xA#4 nnn).symm, decode_ofNat_familyF x 0x1E#8 rfl,
    ⟨_, rfl, zextI_toNat nnn, rfl, exec_frame (i := .ldI nnn) rfl⟩,
    ⟨_, rfl, sumI_toNat s.i (s.readV x), rfl, exec_frame (i := .addI x) rfl⟩⟩

/-! ### The bulk transfers (R182 to R184) -/

section
variable {s : State} {x : Reg}

/-- A transfer of `V[0]` to `V[x]` past the end of memory is its fault alone, whatever it would have moved (R184). -/
theorem State.checked_bulk_outOfRange (t : State) (h : s.i.toNat + x.val ≥ Config.memSize) :
    s.checked s.base (x.val + 1) t = s.raise (.memOutOfRange s.pc (max s.i.toNat Config.memSize)) :=
  State.checked_of_gt s t (Nat.lt_succ_of_le h)

/-- An `FX65` whose bytes all exist loads its registers, advances, and changes nothing else (R183, R184). -/
theorem exec_loadRegs_of_fits (hfit : s.i.toNat + x.val < Config.memSize) :
    ∃ t, exec (.loadRegs x) s = .next t ∧ (∀ r : Reg, r ≤ x → t.readV r = s.memRead (s.i.toNat + r.val)) ∧
      t.pc = s.pc + 2 ∧ t.memory = s.memory ∧ s.Frame t (regsUpTo x) [] (fun _ => False) := by
  have hframe : s.Frame (s.loadRegs (x.val + 1)) (regsUpTo x) [] (fun _ => False) :=
    State.Frame.loadRegs x.isLt fun r hr => mem_regsUpTo.mpr (Nat.le_of_lt_succ hr)
  refine ⟨(s.loadRegs (x.val + 1)).advance, congrArg Host.Outcome.next (State.checked_of_le _ _ hfit), ?_, ?_, ?_,
    hframe.advance⟩
  · intro r hr
    rw [State.advance_readV, State.loadRegs_readV s x.isLt, if_pos (Nat.lt_succ_of_le hr), State.base]
  · rw [State.advance_pc, State.loadRegs_eq]
  · rw [State.advance_memory, State.loadRegs_eq]

end

/-- Settles O45: the check comes before the loop, which stores one register at each of its addresses. -/
theorem bulkStoreStoresRegisters : Obligations.BulkStoreStoresRegisters := fun x _ =>
  ⟨decode_ofNat_familyF x 0x55#8 rfl, fun hout => congrArg Host.Outcome.next (State.checked_bulk_outOfRange _ hout),
    exec_storeRegs_of_fits⟩

/-- Settles O46: the check comes before the loop, which writes each of its registers once. -/
theorem bulkLoadLoadsRegisters : Obligations.BulkLoadLoadsRegisters := fun x _ =>
  ⟨decode_ofNat_familyF x 0x65#8 rfl, fun hout => congrArg Host.Outcome.next (State.checked_bulk_outOfRange _ hout),
    exec_loadRegs_of_fits⟩

/-- Settles O47: the store leaves `I` as it was, so that the load reads the bytes that were stored. -/
theorem bulkStoreThenLoadRestores : Obligations.BulkStoreThenLoadRestores := by
  intro x s v' pc' hm hfit
  obtain ⟨t, hstore, hstored, -, hkept⟩ := exec_storeRegs_of_fits hm hfit
  have hi : t.i = s.i := hkept.i List.not_mem_nil
  obtain ⟨u, hload, hloaded, -, -, hkept'⟩ :=
    exec_loadRegs_of_fits (s := { t with v := v', pc := pc' }) (x := x) (by rwa [hi])
  refine ⟨t, u, hstore, hload, fun r hr => ?_, (hkept'.i List.not_mem_nil).trans hi⟩
  calc u.readV r = t.memRead (t.i.toNat + r.val) := hloaded r hr
    _ = t.memRead (s.i.toNat + r.val) := by rw [hi]
    _ = s.readV r := hstored r hr

end Sys2Proof.Machine
end

section
/-! The framebuffer clear and the sprite blitter of 43_sprite_blitter.md: a draw as the states between its rows, what
one row does to the screen, to `VF` and to the event list, and a whole draw of a sprite apart from its target. -/

namespace Sys2Proof.Machine

/-! ### The framebuffer clear (R200) -/

/-- Settles O49: the fill gives 0 at every address of the framebuffer, where every pixel's byte lies. -/
theorem clsClearsTheFramebuffer : Obligations.ClsClearsTheFramebuffer := by
  refine ⟨decode_eq_ok_iff_encode_eq.mpr rfl, fun s hm => ?_⟩
  obtain ⟨t, h⟩ := exec_answers .cls s
  have hzero : ∀ a, layout.fbStart ≤ a → a < layout.fbStart + layout.fbSize → t.memRead a = 0 := fun a hlo hhi => by
    rw [State.memRead, exec_cls_memory h]
    exact Memory.read_fill_inside 0 hm (by decide) ⟨hlo, hhi⟩
  have hdark : ∀ px py, px < layout.screenW → py < layout.screenH → t.pixel px py = false := fun px py hx hy => by
    obtain ⟨hlo, hhi⟩ := pixelAddr_range hx hy
    rw [State.pixel, hzero _ hlo hhi]
    exact BitVec.getLsbD_zero
  have hpc : t.pc = s.pc + 2 := by
    obtain rfl := Host.Outcome.next.inj h
    simp only [State.advance_pc, State.emit_pc]
  exact ⟨t, h, hzero, hdark, exec_cls_events h, hpc, exec_frame h⟩

/-! ### A draw, row by row -/

/-- A draw of `V[x]`, `V[y]` after its first `k` rows. -/
def State.afterRows (s : State) (x y : Reg) (k : Nat) : State :=
  forUpTo (State.drawRow (s.readV x).toNat (s.readV y).toNat) k (s.writeV VF 0)

section
variable {s : State} {x y : Reg} {n : Nibble}

/-- A draw whose rows can be read is its rows, `present()`, and the advance of `PC` (R202). -/
theorem exec_drw_of_readable (h : s.spriteReadable y n) :
    exec (.drw x y n) s =
      .next ((s.afterRows x y (spriteRows n (s.readV y))).emit .present).advance := by
  refine congrArg Host.Outcome.next ?_
  by_cases hnone : spriteRows n (s.readV y) = 0
  · exact if_pos hnone
  · rw [if_neg hnone]
    exact State.checked_of_le _ _ (h.resolve_left hnone)

/-- A draw with a row past memory is its fault alone (R203). -/
theorem exec_drw_of_not_readable (h : ¬ s.spriteReadable y n) :
    exec (.drw x y n) s = .next (s.raise (.memOutOfRange s.pc (max s.i.toNat Config.memSize))) := by
  obtain ⟨hnone, hfit⟩ := not_or.mp h
  exact congrArg Host.Outcome.next ((if_neg hnone).trans (State.checked_of_gt _ _ (Nat.lt_of_not_le hfit)))

theorem State.afterRows_base (k : Nat) : (s.afterRows x y k).base = s.base :=
  (s.drawSprite_keeps _ _ k).base

theorem State.wf_afterRows (k : Nat) (hm : Memory.wf s.memory = true) :
    Memory.wf (s.afterRows x y k).memory = true :=
  (s.drawSprite_keeps _ _ k).wf hm

/-- A draw's frame: `VF`, the event list, and the bytes of its own pixels (R202, R204). -/
theorem State.afterRows_frame :
    s.Frame ((s.afterRows x y (spriteRows n (s.readV y))).emit .present).advance [VF] [.events]
      (fun a => storesTo s a (.drw x y n)) :=
  ((s.drawSprite_keeps _ _ _).frame (List.mem_singleton_self _) (List.mem_singleton_self _) fun _ ha =>
    State.drawSprite_memRead_outside s fun j c hj hc hx e => ha ⟨j, c, hj, hc, hx, e⟩).advance

theorem State.afterRows_pc (k : Nat) : (s.afterRows x y k).pc = s.pc := by
  have hpc := congrArg State.pc (s.drawSprite_keeps (s.readV x).toNat (s.readV y).toNat k).eq
  exact hpc

/-! ### The flag is 0 or 1 (R205) -/

theorem State.flag_drawRow {t : State} (h : t.readV VF = 0 ∨ t.readV VF = 1) (x0 y0 j : Nat) :
    (t.drawRow x0 y0 j).readV VF = 0 ∨ (t.drawRow x0 y0 j).readV VF = 1 := by
  refine forUpTo_induct (fun _ (u : State) => u.readV VF = 0 ∨ u.readV VF = 1) 8 h fun c u _ hu => ?_
  unfold State.drawColumn
  split
  case isTrue =>
    rw [State.flipPixel_readV]
    split
    · exact .inr rfl
    · exact hu
  case isFalse => exact hu

theorem State.flag_afterRows (k : Nat) :
    (s.afterRows x y k).readV VF = 0 ∨ (s.afterRows x y k).readV VF = 1 :=
  forUpTo_induct (fun _ (t : State) => t.readV VF = 0 ∨ t.readV VF = 1) k (.inl (by simp))
    fun j _ _ h => State.flag_drawRow h _ _ j

end

/-- Settles O50: `spriteReadable` is the check's own condition, and a draw that passes it has the frame of its rows. -/
theorem drawCompletesOrFaultsWhole : Obligations.DrawCompletesOrFaultsWhole := by
  refine fun x y n s => ⟨decode_eq_ok_iff_encode_eq.mpr (ofNat_nibbles 0xD#4 x y n).symm, fun a => storesTo_drw,
    exec_drw_of_not_readable, fun h => ⟨_, exec_drw_of_readable h, ?_, State.flag_afterRows _, State.afterRows_frame⟩⟩
  rw [State.advance_pc, State.emit_pc, State.afterRows_pc]

/-! ### Draws without a pixel (R204, R207) -/

/-- A row to the right of the screen is read and changes nothing (R203, R204). -/
theorem State.drawRow_offScreen {x0 : Nat} (h : layout.screenW ≤ x0) (y0 j : Nat) (t : State) :
    t.drawRow x0 y0 j = t :=
  forUpTo_induct (fun _ u => u = t) 8 rfl fun c u _ hu =>
    (if_neg fun hin => absurd hin.1 (by omega)).trans hu

theorem State.afterRows_offScreen {s : State} {x : Reg} (h : layout.screenW ≤ (s.readV x).toNat) (y : Reg) (k : Nat) :
    s.afterRows x y k = s.writeV VF 0 :=
  forUpTo_induct (fun _ t => t = s.writeV VF 0) k rfl fun j t _ ht => (State.drawRow_offScreen h _ j t).trans ht

theorem spriteRows_eq_zero {n : Nibble} {y0 : Byte} (h : n = 0 ∨ layout.screenH ≤ y0.toNat) : spriteRows n y0 = 0 := by
  obtain rfl | hy := h
  · exact Nat.zero_min _
  · rw [spriteRows, Nat.sub_eq_zero_of_le hy, Nat.min_zero]

/-- An empty draw resets `VF`, presents and advances. -/
theorem exec_drw_of_empty {s : State} {x y : Reg} {n : Nibble}
    (h : n = 0 ∨ layout.screenH ≤ (s.readV y).toNat ∨
      (layout.screenW ≤ (s.readV x).toNat ∧ s.spriteReadable y n)) :
    exec (.drw x y n) s = .next ((s.writeV VF 0).emit .present).advance := by
  obtain hnone | ⟨hx, hread⟩ := or_assoc.mpr h
  · have hrows : spriteRows n (s.readV y) = 0 := spriteRows_eq_zero hnone
    rw [exec_drw_of_readable (.inl hrows), hrows]
    rfl
  · rw [exec_drw_of_readable hread, State.afterRows_offScreen hx]

/-- Settles O55: in each of the three cases the draw is three operations, each with its frame rule. -/
theorem emptyDrawOnlyPresents : Obligations.EmptyDrawOnlyPresents := fun x y n s h =>
  ⟨_, exec_drw_of_empty h, by simp, rfl, rfl, rfl,
    (((State.Frame.refl s _ _ _).writeV (List.mem_singleton_self _) 0).emit (List.mem_singleton_self _) _).advance⟩

/-! ### What one row does -/

section
variable {s : State} {x y : Reg} {k : Nat}

/-- Row `k` draws the byte that memory holds at `I + k` after the rows before it (R208). -/
theorem State.afterRows_succ :
    s.afterRows x y (k + 1) =
      forUpTo (State.drawColumn ((s.afterRows x y k).memRead (s.base + k)) (s.readV x).toNat ((s.readV y).toNat + k)) 8
        (s.afterRows x y k) := by
  rw [← State.afterRows_base (x := x) (y := y) k]
  rfl

variable (hm : Memory.wf s.memory = true) (hy : (s.readV y).toNat + k < layout.screenH)
include hm hy

/-- A row flips the pixels its set bits cover (R202). -/
theorem State.afterRows_succ_pixel {px : Nat} (hx : px < layout.screenW) (py : Nat) :
    (s.afterRows x y (k + 1)).pixel px py = ((s.afterRows x y k).pixel px py ^^
      decide (py = (s.readV y).toNat + k ∧ (s.readV x).toNat ≤ px ∧ px < (s.readV x).toNat + 8 ∧
        spriteBit ((s.afterRows x y k).memRead (s.base + k)) (px - (s.readV x).toNat) = true)) := by
  obtain ⟨-, hpixel, -⟩ := State.drawColumns_spec ((s.afterRows x y k).memRead (s.base + k)) (s.readV x).toNat _
    (State.wf_afterRows (x := x) (y := y) k hm) hy 8
  rw [State.afterRows_succ, hpixel px py hx]

/-- A row sets `VF` when it flips a lit pixel, and never clears it (R205). -/
theorem State.afterRows_succ_flag :
    (s.afterRows x y (k + 1)).readV VF = 1 ↔ (s.afterRows x y k).readV VF = 1 ∨
      ∃ c, c < 8 ∧ flips ((s.afterRows x y k).memRead (s.base + k)) (s.readV x).toNat c = true ∧
        (s.afterRows x y k).pixel ((s.readV x).toNat + c) ((s.readV y).toNat + k) = true := by
  obtain ⟨-, -, hflag, -⟩ := State.drawColumns_spec ((s.afterRows x y k).memRead (s.base + k)) (s.readV x).toNat _
    (State.wf_afterRows (x := x) (y := y) k hm) hy 8
  rw [State.afterRows_succ, hflag]
  split
  case isTrue hlit => exact ⟨fun _ => .inr hlit, fun _ => rfl⟩
  case isFalse hdark => exact (or_iff_left hdark).symm

/-- The events of a row (R206). -/
theorem State.afterRows_succ_events :
    (s.afterRows x y (k + 1)).events = (s.afterRows x y k).events ++
      ((List.range 8).filter (flips ((s.afterRows x y k).memRead (s.base + k)) (s.readV x).toNat)).map fun c =>
        flipEvent (s.afterRows x y k) ((s.readV x).toNat + c) ((s.readV y).toNat + k) := by
  obtain ⟨-, -, -, hevents⟩ := State.drawColumns_spec ((s.afterRows x y k).memRead (s.base + k)) (s.readV x).toNat _
    (State.wf_afterRows (x := x) (y := y) k hm) hy 8
  rw [State.afterRows_succ, hevents]

end

theorem flips_iff {sb : Byte} {x0 c : Nat} :
    flips sb x0 c = true ↔ x0 + c < layout.screenW ∧ spriteBit sb c = true := by
  rw [flips, Bool.and_eq_true, decide_eq_true_eq]

theorem spriteRows_eq {n : Nibble} {y0 : Byte} (h : y0.toNat + n.toNat ≤ layout.screenH) :
    spriteRows n y0 = n.toNat :=
  Nat.min_eq_left (by omega)

/-- Settles O54: the draw of `n + 1` rows is one more row drawn in the state after `n` rows. -/
theorem eachRowIsReadWhenItIsDrawn : Obligations.EachRowIsReadWhenItIsDrawn := by
  intro x y n m s hm hmn hy hi x0 cy
  have hn : spriteRows n (s.readV y) = n.toNat := spriteRows_eq (by omega)
  have hm' : spriteRows m (s.readV y) = n.toNat + 1 := by rw [spriteRows_eq (by omega), hmn]
  have hreadN : s.spriteReadable y n := .inr (by rw [hn, State.base]; omega)
  have hreadM : s.spriteReadable y m := .inr (by rw [hm', State.base]; omega)
  refine ⟨_, _, exec_drw_of_readable hreadN, exec_drw_of_readable hreadM, ?_, ?_⟩ <;> rw [hn, hm']
  · exact fun px py hx _ => State.afterRows_succ_pixel hm hy hx py
  · have hflag := State.afterRows_succ_flag (x := x) hm hy
    simp only [flips_iff, and_assoc] at hflag
    exact hflag

/-! ### A sprite apart from the bytes it draws on (R210) -/

section
variable {s : State} {x y : Reg} {n : Nibble}

/-- Among the pixels that a sprite covers, those of the rows not clipped are those above the screen's end. -/
theorem State.spriteCovers.lt_rows_iff {px py : Nat} (h : s.spriteCovers x y n px py) :
    py < (s.readV y).toNat + spriteRows n (s.readV y) ↔ py < layout.screenH := by
  obtain ⟨-, -, hlo, hhi, -⟩ := h
  rw [spriteRows]
  omega

/-- The set bits of row `k` cover the sprite's pixels of that row. -/
theorem State.spriteCovers_row_iff {k px py : Nat} (hk : k < n.toNat) :
    (py = (s.readV y).toNat + k ∧ (s.readV x).toNat ≤ px ∧ px < (s.readV x).toNat + 8 ∧
      spriteBit (s.memRead (s.base + k)) (px - (s.readV x).toNat) = true) ↔
    s.spriteCovers x y n px py ∧ py = (s.readV y).toNat + k := by
  constructor
  · rintro ⟨rfl, hlo, hhi, hbit⟩
    exact ⟨⟨hlo, hhi, by omega, by omega, by rwa [Nat.add_sub_cancel_left]⟩, rfl⟩
  · rintro ⟨⟨hlo, hhi, -, -, hbit⟩, rfl⟩
    exact ⟨rfl, hlo, hhi, by rwa [Nat.add_sub_cancel_left] at hbit⟩

/-- Column `c` of row `k` covers a pixel exactly when its bit is set. -/
theorem State.spriteCovers_add_iff {k c : Nat} (hk : k < n.toNat) (hc : c < 8) :
    s.spriteCovers x y n ((s.readV x).toNat + c) ((s.readV y).toNat + k) ↔
      spriteBit (s.memRead (s.base + k)) c = true := by
  simp [State.spriteCovers, hk, hc]

theorem lt_of_lt_spriteRows {k : Nat} {y0 : Byte} (h : k < spriteRows n y0) : k < n.toNat :=
  h.trans_le (Nat.min_le_left _ _)

/-- The rows before leave the sprite byte of a later row as it was. -/
theorem State.afterRows_sprite (ha : s.spriteApart x y n) {k j : Nat} (hk : k ≤ spriteRows n (s.readV y))
    (hj : j < spriteRows n (s.readV y)) :
    (s.afterRows x y k).memRead (s.base + j) = s.memRead (s.base + j) :=
  State.drawSprite_memRead_outside s fun i c hi hc hx e => ha j hj ⟨i, c, hi.trans_le hk, hc, hx, e⟩

variable (hm : Memory.wf s.memory = true) (ha : s.spriteApart x y n)
include hm ha

open Classical in
/-- After `k` rows exactly the covered pixels of those rows are flipped (R202). -/
theorem State.afterRows_pixel {k : Nat} (hk : k ≤ spriteRows n (s.readV y)) {px : Nat} (hx : px < layout.screenW)
    (py : Nat) :
    (s.afterRows x y k).pixel px py =
      (s.pixel px py ^^ decide (s.spriteCovers x y n px py ∧ py < (s.readV y).toNat + k)) := by
  induction k with
  | zero =>
    have hnone : ¬ (s.spriteCovers x y n px py ∧ py < (s.readV y).toNat + 0) := fun ⟨⟨_, _, hlo, _⟩, hlt⟩ =>
      absurd hlt (Nat.not_lt.mpr hlo)
    rw [decide_eq_false hnone, Bool.xor_false]
    rfl
  | succ k ih =>
    have hk' : k ≤ spriteRows n (s.readV y) := Nat.le_of_succ_le hk
    rw [State.afterRows_succ_pixel hm (spriteRows_onScreen hk) hx, State.afterRows_sprite ha hk' hk, ih hk',
      Bool.xor_assoc]
    congr 1
    simp only [State.spriteCovers_row_iff (lt_of_lt_spriteRows hk)]
    by_cases hc : s.spriteCovers x y n px py
    · obtain hlt | heq | hgt := lt_trichotomy py ((s.readV y).toNat + k)
      · simp [hc, hlt, hlt.ne, Nat.lt_succ_of_lt hlt, ← Nat.add_assoc]
      · simp [heq]
      · simp [hc, hgt.ne', hgt.not_gt, Nat.not_lt.mpr (Nat.succ_le_of_lt hgt), ← Nat.add_assoc]
    · simp [hc]

/-- The rows still to be drawn show what the screen showed before the draw. -/
theorem State.afterRows_pixel_later {k : Nat} (hk : k ≤ spriteRows n (s.readV y)) {px py : Nat}
    (hx : px < layout.screenW) (hy : (s.readV y).toNat + k ≤ py) :
    (s.afterRows x y k).pixel px py = s.pixel px py := by
  classical
  rw [State.afterRows_pixel hm ha hk hx, decide_eq_false fun h => absurd h.2 (Nat.not_lt.mpr hy), Bool.xor_false]

/-- After `k` rows `VF` says whether they covered a lit pixel (R205). -/
theorem State.afterRows_flag {k : Nat} (hk : k ≤ spriteRows n (s.readV y)) :
    (s.afterRows x y k).readV VF = 1 ↔ ∃ px py, px < layout.screenW ∧ py < (s.readV y).toNat + k ∧
      s.spriteCovers x y n px py ∧ s.pixel px py = true := by
  induction k with
  | zero =>
    constructor
    · intro h
      have hzero : (s.afterRows x y 0).readV VF = 0 := (State.readV_writeV ..).trans (if_pos rfl)
      exact absurd (hzero.symm.trans h) (by decide)
    · rintro ⟨px, py, -, hlt, ⟨-, -, hlo, -⟩, -⟩
      exact absurd hlt (Nat.not_lt.mpr hlo)
  | succ k ih =>
    have hk' : k ≤ spriteRows n (s.readV y) := Nat.le_of_succ_le hk
    have hkn : k < n.toNat := lt_of_lt_spriteRows hk
    rw [State.afterRows_succ_flag hm (spriteRows_onScreen hk), State.afterRows_sprite ha hk' hk, ih hk']
    constructor
    · rintro (⟨px, py, hx, hlt, hc⟩ | ⟨c, hc, hflip, hlit⟩)
      · exact ⟨px, py, hx, by omega, hc⟩
      · obtain ⟨hx, hbit⟩ := flips_iff.mp hflip
        rw [State.afterRows_pixel_later hm ha hk' hx le_rfl] at hlit
        exact ⟨_, _, hx, by omega, (State.spriteCovers_add_iff hkn hc).mpr hbit, hlit⟩
    · rintro ⟨px, py, hx, hlt, hcov, hlit⟩
      obtain hbefore | rfl : py < (s.readV y).toNat + k ∨ py = (s.readV y).toNat + k := by omega
      · exact .inl ⟨px, py, hx, hbefore, hcov, hlit⟩
      · have ⟨hlo, hhi, _⟩ := hcov
        obtain ⟨c, rfl⟩ := Nat.exists_eq_add_of_le hlo
        have hc : c < 8 := Nat.add_lt_add_iff_left.mp hhi
        refine .inr ⟨c, hc, flips_iff.mpr ⟨hx, (State.spriteCovers_add_iff hkn hc).mp hcov⟩, ?_⟩
        rwa [State.afterRows_pixel_later hm ha hk' hx le_rfl]

/-- The events of the first `k` rows, row by row (R206). -/
theorem State.afterRows_events {k : Nat} (hk : k ≤ spriteRows n (s.readV y)) :
    (s.afterRows x y k).events = s.events ++ (List.range k).flatMap fun j =>
      ((List.range 8).filter (flips (s.memRead (s.base + j)) (s.readV x).toNat)).map fun c =>
        flipEvent s ((s.readV x).toNat + c) ((s.readV y).toNat + j) := by
  induction k with
  | zero => exact (List.append_nil _).symm
  | succ k ih =>
    have hk' : k ≤ spriteRows n (s.readV y) := Nat.le_of_succ_le hk
    rw [State.afterRows_succ_events hm (spriteRows_onScreen hk), State.afterRows_sprite ha hk' hk, ih hk',
      List.range_succ (n := k), List.flatMap_append, List.flatMap_singleton, List.append_assoc]
    refine congrArg _ (congrArg _ (List.map_congr_left fun c hc => ?_))
    obtain ⟨hx, -⟩ := flips_iff.mp (List.mem_filter.mp hc).2
    rw [flipEvent, State.afterRows_pixel_later hm ha hk' hx le_rfl, flipEvent]

end

/-- Settles O51: a covered pixel of the screen lies in a row that is drawn. -/
theorem drawFlipsWhatTheSpriteCovers : Obligations.DrawFlipsWhatTheSpriteCovers := by
  classical
  intro x y n s hm hread ha
  refine ⟨_, exec_drw_of_readable hread, fun px py hx hy hc => ?_, fun px py hx _ hc => ?_, ?_⟩
  · refine (State.afterRows_pixel hm ha le_rfl hx py).trans ?_
    rw [decide_eq_true ⟨hc, hc.lt_rows_iff.mpr hy⟩, Bool.xor_true]
  · refine (State.afterRows_pixel hm ha le_rfl hx py).trans ?_
    rw [decide_eq_false fun h => hc h.1, Bool.xor_false]
  · refine (State.afterRows_flag hm ha le_rfl).trans (exists₂_congr fun px py => and_congr_right fun _ => ?_)
    exact and_congr_left fun h => h.1.lt_rows_iff

/-- Settles O53: the events of the rows are those the statement lists, and `present()` comes last. -/
theorem drawEmitsOneEventPerFlip : Obligations.DrawEmitsOneEventPerFlip := fun _ _ _ _ hm hread ha =>
  ⟨_, exec_drw_of_readable hread, congrArg (· ++ [DisplayEvent.present]) (State.afterRows_events hm ha le_rfl)⟩

/-! ### Drawing twice (R210) -/

/-- Every bit of a framebuffer byte is a pixel of the screen (R34). -/
theorem exists_pixel_of_bit {a k : Nat} (hlo : 0xF00 ≤ a) (hhi : a < 0x1000) (hk : k < 8) :
    ∃ px py, px < layout.screenW ∧ py < layout.screenH ∧ pixelAddr px py = a ∧ pixelBit px = k := by
  refine ⟨a % 8 * 8 + (7 - k), (a - 0xF00) / 8, ?_, ?_, ?_, ?_⟩
  · rw [layout_screenW]; omega
  · rw [layout_screenH]; omega
  · rw [pixelAddr_eq]; omega
  · rw [pixelBit]; omega

/-- Two states that show the same screen hold the same framebuffer bytes. -/
theorem memRead_eq_of_pixel_eq {s t : State}
    (h : ∀ px py, px < layout.screenW → py < layout.screenH → t.pixel px py = s.pixel px py) {a : Nat}
    (hlo : 0xF00 ≤ a) (hhi : a < 0x1000) : t.memRead a = s.memRead a := by
  refine BitVec.eq_of_getLsbD_eq fun k hk => ?_
  obtain ⟨px, py, hx, hy, rfl, rfl⟩ := exists_pixel_of_bit hlo hhi hk
  exact h px py hx hy

/-- A draw leaves every byte outside the framebuffer alone (R204). -/
theorem exec_drw_memRead_outside {s t : State} {x y : Reg} {n : Nibble} (h : exec (.drw x y n) s = .next t) {a : Nat}
    (hout : ¬ (0xF00 ≤ a ∧ a < 0x1000)) : t.memRead a = s.memRead a :=
  (exec_frame h).memory a fun hst => hout (storesTo_drw hst)

section
variable {s t : State} {x y : Reg} {n : Nibble}

/-- A state where the draw of `x`, `y` and `n` has the same coordinates and the same sprite bytes as in `s`. -/
structure State.SameDraw (s t : State) (x y : Reg) (n : Nibble) : Prop where
  base : t.base = s.base
  vx : t.readV x = s.readV x
  vy : t.readV y = s.readV y
  sprite : ∀ j, j < spriteRows n (s.readV y) → t.memRead (s.base + j) = s.memRead (s.base + j)

theorem State.SameDraw.readable (h : s.SameDraw t x y n) (hread : s.spriteReadable y n) : t.spriteReadable y n := by
  rwa [State.spriteReadable, h.base, h.vy]

theorem State.SameDraw.apart (h : s.SameDraw t x y n) (ha : s.spriteApart x y n) : t.spriteApart x y n := by
  simp only [State.spriteApart, storesTo, h.base, h.vx, h.vy] at *
  exact ha

theorem State.SameDraw.covers_iff (h : s.SameDraw t x y n) {px py : Nat} (hy : py < layout.screenH) :
    t.spriteCovers x y n px py ↔ s.spriteCovers x y n px py := by
  simp only [State.spriteCovers, h.base, h.vx, h.vy]
  refine and_congr_right fun _ => and_congr_right fun _ => and_congr_right fun hlo => and_congr_right fun hhi => ?_
  rw [h.sprite _ (by rw [spriteRows]; omega)]

/-- A draw leaves its own sprite as it was, when it lies apart. -/
theorem exec_drw_sprite (h : exec (.drw x y n) s = .next t) (ha : s.spriteApart x y n) {j : Nat}
    (hj : j < spriteRows n (s.readV y)) : t.memRead (s.base + j) = s.memRead (s.base + j) :=
  (exec_frame h).memory _ (ha j hj)

end

/-- Settles O52: the second draw covers the same pixels and finds each of them as the first left it, inverted. -/
theorem drawingTwiceRestoresTheScreen : Obligations.DrawingTwiceRestoresTheScreen := by
  intro x y n s t t' hm hread ha hexec hmem hi hvx hvy
  have hread' : ∀ a, t'.memRead a = t.memRead a := fun a => by rw [State.memRead, hmem, State.memRead]
  have hpix' : ∀ px py, t'.pixel px py = t.pixel px py := fun px py => by rw [State.pixel, hread', State.pixel]
  have hsame : s.SameDraw t' x y n :=
    ⟨congrArg BitVec.toNat hi, hvx, hvy, fun j hj => (hread' _).trans (exec_drw_sprite hexec ha hj)⟩
  obtain ⟨t₁, h₁, hflip, hkeep, -⟩ := drawFlipsWhatTheSpriteCovers x y n s hm hread ha
  obtain rfl : t = t₁ := Host.Outcome.next.inj (hexec.symm.trans h₁)
  obtain ⟨u, hu, hflip', hkeep', hflag⟩ := drawFlipsWhatTheSpriteCovers x y n t' (hmem ▸ exec_wf hexec hm)
    (hsame.readable hread) (hsame.apart ha)
  refine ⟨u, hu, fun a => ?_, hflag.trans ?_⟩
  · by_cases hin : 0xF00 ≤ a ∧ a < 0x1000
    · refine memRead_eq_of_pixel_eq (fun px py hx hy => ?_) hin.1 hin.2
      by_cases hc : s.spriteCovers x y n px py
      · rw [hflip' px py hx hy ((hsame.covers_iff hy).mpr hc), hpix', hflip px py hx hy hc, Bool.not_not]
      · rw [hkeep' px py hx hy fun h => hc ((hsame.covers_iff hy).mp h), hpix', hkeep px py hx hy hc]
    · rw [exec_drw_memRead_outside hu hin, hread', exec_drw_memRead_outside hexec hin]
  · refine exists₂_congr fun px py => and_congr_right fun hx => and_congr_right fun hy => ?_
    rw [hsame.covers_iff hy]
    refine and_congr_right fun hc => ?_
    rw [hpix', hflip px py hx hy hc, Bool.not_eq_true']

end Sys2Proof.Machine
end

section
/-! Faults and the halt of 60_exceptions.md: every step answers a next state, a fault raises at the instruction's own
address and changes nothing else, and the checks apply in the order of R235. -/

namespace Sys2Proof.Machine

/-! ### Every step answers a next state (R233, R237) -/

theorem step_answers (s : State) : ∃ t, step s = .next t := by
  by_cases hs : s.status = .running
  · cases hfetch : s.fetchFault with
    | some d => exact ⟨_, step_of_fetchFault hs hfetch⟩
    | none =>
      have hcan := State.fetchFault_eq_none.mp hfetch
      cases hdec : decode s.fetch with
      | ok i =>
        rw [step_of_decode hs hcan hdec]
        exact exec_answers i s
      | error r => exact ⟨_, step_of_decode_error hs hcan hdec⟩
  · exact ⟨s, step_of_stopped hs⟩

/-- Settles O15: no arm of `exec` refuses, and the rest of a step raises or does nothing. -/
theorem everyStepAnswersANextState : Obligations.EveryStepAnswersANextState :=
  ⟨exec_answers, step_answers⟩

/-! ### A fault is precise (R232, R233) -/

/-- From `s` to `t` the run status was kept, or a fault at the `PC` of `s` was raised and nothing else changed. -/
def State.KeepsStatusOrRaises (s t : State) : Prop :=
  t.status = s.status ∨ ∃ d, d.pc = s.pc ∧ t = s.raise d

section
variable {s t : State} {i : Instr} {d : Diagnostic}

theorem State.KeepsStatusOrRaises.checked (h : t.status = s.status) (base k : Nat) :
    s.KeepsStatusOrRaises (s.checked base k t) := by
  by_cases hfit : base + k ≤ Config.memSize
  · rw [State.checked_of_le s t hfit]
    exact .inl h
  · rw [State.checked_of_gt s t (Nat.lt_of_not_le hfit)]
    exact .inr ⟨_, rfl, rfl⟩

/-- An instruction that does not halt raises at its own address or keeps the run status, whatever `SP` is. -/
theorem exec_halts_or_raises (h : exec i s = .next t) : t = s.halt ∨ s.KeepsStatusOrRaises t := by
  cases i with
  | jp nnn => exact (exec_jp_cases h).imp And.right fun ht => .inl (by rw [ht, State.setPc_status])
  | call nnn =>
    by_cases hover : s.sp.toNat < layout.stackStart + 2
    · rw [exec_call_overflow hover] at h
      cases h
      exact .inr (.inr ⟨_, rfl, rfl⟩)
    · rw [exec, execCall, if_neg hover] at h
      cases h
      have hkept : ((s.push (s.pc + 2)).setPc (zextPc nnn)).status = s.status := rfl
      exact .inr (.checked hkept _ _)
  | ret =>
    by_cases hunder : s.sp.toNat + 2 > layout.stackEnd
    · rw [exec_ret_underflow hunder] at h
      cases h
      exact .inr (.inr ⟨_, rfl, rfl⟩)
    · rw [exec_ret_of_entry (Nat.le_of_not_lt hunder)] at h
      cases h
      exact .inr (.inl rfl)
  | storeRegs x =>
    cases h
    exact .inr (.checked (by rw [State.advance_status, State.storeRegs_eq]) _ _)
  | loadRegs x =>
    cases h
    exact .inr (.checked (by rw [State.advance_status, State.loadRegs_eq]) _ _)
  | drw x y n =>
    by_cases hread : s.spriteReadable y n
    · rw [exec_drw_of_readable hread] at h
      cases h
      exact .inr (.inl (State.afterRows_frame.status (by decide)))
    · rw [exec_drw_of_not_readable hread] at h
      cases h
      exact .inr (.inr ⟨_, rfl, rfl⟩)
  | _ => exact .inr (.inl ((exec_frame h).status (by simp [writesItems])))

theorem State.fetchFault_pc (h : s.fetchFault = some d) : d.pc = s.pc := by
  unfold State.fetchFault at h
  split at h
  case isTrue => cases h; rfl
  case isFalse =>
    split at h
    case isTrue => cases h; rfl
    case isFalse => cases h

theorem step_halts_or_raises (h : step s = .next t) : t = s.halt ∨ s.KeepsStatusOrRaises t := by
  obtain ⟨-, rfl⟩ | ⟨-, d, hfetch, rfl⟩ | ⟨-, -, r, -, rfl⟩ | ⟨-, -, i, -, hexec⟩ := step_cases h
  · exact .inr (.inl rfl)
  · exact .inr (.inr ⟨d, State.fetchFault_pc hfetch, rfl⟩)
  · exact .inr (.inr ⟨_, rfl, rfl⟩)
  · exact exec_halts_or_raises hexec

end

/-- Settles O14: of what a step can do to a running machine, only a raise gives it the status of a fault. -/
theorem faultsArePrecise : Obligations.FaultsArePrecise := by
  intro s t d hs hstep ht
  obtain rfl | hkept | ⟨d', hpc, rfl⟩ := step_halts_or_raises hstep
  · cases ht
  · rw [ht, hs] at hkept
    cases hkept
  · cases ht
    exact ⟨rfl, hpc⟩

/-! ### The order of the checks (R235, R236) -/

section
variable {s t : State} {i : Instr} {d : Diagnostic}

/-- An instruction whose own check applies raises its fault and does nothing else. -/
theorem exec_of_ownCheck (h : ownCheck s i = some d) : exec i s = .next (s.raise d) := by
  cases i with
  | call nnn =>
    obtain ⟨hover, hd⟩ := Option.ite_none_right_eq_some.mp h
    cases hd
    exact exec_call_overflow hover
  | ret =>
    obtain ⟨hunder, hd⟩ := Option.ite_none_right_eq_some.mp h
    cases hd
    exact exec_ret_underflow hunder
  | storeRegs x | loadRegs x =>
    obtain ⟨hout, hd⟩ := Option.ite_none_right_eq_some.mp h
    cases hd
    exact congrArg Host.Outcome.next (State.checked_bulk_outOfRange _ hout)
  | drw x y n =>
    obtain ⟨hout, hd⟩ := Option.ite_none_right_eq_some.mp h
    cases hd
    refine exec_drw_of_not_readable ?_
    change spriteRows n (s.readV y) > 0 ∧ s.base + spriteRows n (s.readV y) - 1 ≥ Config.memSize at hout
    omega
  | _ => cases h

/-- The cause of R235 is what a running machine's step raises. -/
theorem step_of_faultCause (hs : s.status = .running) (h : s.faultCause = some d) : step s = .next (s.raise d) := by
  cases hfetch : s.fetchFault with
  | some d' =>
    obtain rfl : d' = d := Option.some.inj ((State.faultCause_of_fetchFault hfetch).symm.trans h)
    exact step_of_fetchFault hs hfetch
  | none =>
    have hcan := State.fetchFault_eq_none.mp hfetch
    cases hdec : decode s.fetch with
    | ok i =>
      rw [step_of_decode hs hcan hdec]
      exact exec_of_ownCheck ((State.faultCause_of_decode_ok hcan hdec).symm.trans h)
    | error r =>
      obtain rfl := Option.some.inj ((State.faultCause_of_decode_error hcan hdec).symm.trans h)
      exact step_of_decode_error hs hcan hdec

/-- With `SP` inside its interval a step faults only with the cause of R235. -/
theorem faultCause_of_step_faulted (hsp : s.spOk) (hs : s.status = .running) (hstep : step s = .next t)
    (ht : t.status = .faulted d) : s.faultCause = some d := by
  obtain ⟨hstop, -⟩ | ⟨-, d', hfetch, rfl⟩ | ⟨-, hcan, r, hdec, rfl⟩ | ⟨-, hcan, i, hdec, hexec⟩ := step_cases hstep
  · exact absurd hs hstop
  · cases ht
    exact State.faultCause_of_fetchFault hfetch
  · cases ht
    exact State.faultCause_of_decode_error hcan hdec
  · rw [State.faultCause_of_decode_ok hcan hdec]
    obtain ⟨d', rfl, hown⟩ | ⟨nnn, -, -, rfl⟩ | hkept := exec_status_cases hexec
    · cases ht
      exact hown hsp
    · cases ht
    · rw [ht, hs] at hkept
      cases hkept

theorem State.canFetch_of_faultCause_eq_none (h : s.faultCause = none) : s.canFetch := by
  refine State.fetchFault_eq_none.mp (Option.eq_none_iff_forall_ne_some.mpr fun d hfetch => ?_)
  cases h.symm.trans (State.faultCause_of_fetchFault hfetch)

theorem step_of_atSelfJump (hs : s.status = .running) (h : s.atSelfJump) : step s = .next s.halt := by
  obtain ⟨hnone, nnn, hdec, hself⟩ := h
  rw [step_of_decode hs (State.canFetch_of_faultCause_eq_none hnone) hdec, exec_jp_self hself]

end

/-- Settles O17: of what a step can do to the run status, only `1NNN` halts, on its own address, and `1NNN` has no check
of its own that could apply before. -/
theorem onlyASelfJumpHalts : Obligations.OnlyASelfJumpHalts := by
  intro s t hs hstep ht
  obtain ⟨hstop, -⟩ | ⟨-, d, -, rfl⟩ | ⟨-, -, r, -, rfl⟩ | ⟨-, hcan, i, hdec, hexec⟩ := step_cases hstep
  · exact absurd hs hstop
  · cases ht
  · cases ht
  · obtain ⟨d, rfl, -⟩ | ⟨nnn, rfl, hself, rfl⟩ | hkept := exec_status_cases hexec
    · cases ht
    · exact ⟨⟨State.faultCause_of_decode_ok hcan hdec, nnn, hdec, zextPc_eq_iff.mp hself⟩, rfl⟩
    · rw [ht, hs] at hkept
      cases hkept

/-- Settles O16: a fault and the halt each have one cause, which the step answers and which is answered only for it. -/
theorem checksApplyInPriorityOrder : Obligations.ChecksApplyInPriorityOrder := by
  intro s hsp
  refine ⟨step_of_stopped, fun hs => ?_⟩
  obtain ⟨t, hstep⟩ := step_answers s
  refine ⟨t, hstep, fun d => ⟨faultCause_of_step_faulted hsp hs hstep, fun hcause => ?_⟩,
    fun ht => (onlyASelfJumpHalts s t hs hstep ht).1, fun hself => ?_⟩
  · obtain rfl := Host.Outcome.next.inj (hstep.symm.trans (step_of_faultCause hs hcause))
    exact State.raise_status s d
  · obtain rfl := Host.Outcome.next.inj (hstep.symm.trans (step_of_atSelfJump hs hself))
    exact State.halt_status s

end Sys2Proof.Machine
end

section
/-! Reset and program load (R39, R260 to R263): the values of the reset state, what a load writes and what it leaves,
and which programs start a machine. -/

namespace Sys2Proof.Machine

/-! ### The reset state (R39, R260) -/

@[simp] theorem State.resetWith_readV (seed : Seed) (r : Reg) : (State.resetWith seed).readV r = 0 :=
  Vector.getElem_replicate r.isLt

/-- Memory lists no byte at reset, so that every address reads as an unlisted one. -/
@[simp] theorem State.resetWith_memRead (seed : Seed) (a : Nat) : (State.resetWith seed).memRead a = 0 := rfl

@[simp] theorem State.resetWith_sp_toNat (seed : Seed) : (State.resetWith seed).sp.toNat = layout.stackEnd := rfl

@[simp] theorem State.resetWith_pc_toNat (seed : Seed) : (State.resetWith seed).pc.toNat = layout.programStart := rfl

/-- Settles O2: the items of the reset state one by one, with `resetSeed` the seed of `State.reset`. -/
theorem resetGivesEveryItemItsValue : Obligations.ResetGivesEveryItemItsValue :=
  ⟨⟨resetSeed, rfl⟩, layout_stackEnd, layout_programStart, fun seed =>
    ⟨State.resetWith_readV seed, rfl, State.resetWith_memRead seed, State.resetWith_sp_toNat seed,
      State.resetWith_pc_toNat seed, rfl, rfl, rfl⟩⟩

/-! ### Program load (R262) -/

section
variable {s : State} {p : List Byte}

/-- A program that fits is read back at `PROGRAM_START`, byte for byte. -/
theorem State.load_memRead_program (hm : Memory.wf s.memory = true)
    (hfits : p.length < layout.stackStart - layout.programStart) {k : Nat} (hk : k < p.length) :
    (s.load p).memRead (layout.programStart + k) = p[k] := by
  have hend : layout.programStart + p.length ≤ Config.memSize := by
    rw [layout_stackStart, layout_programStart] at hfits
    rw [layout_programStart, memSize_eq]
    omega
  exact Memory.read_writeAll hm hend k hk

/-- A load leaves every byte outside the program alone. -/
theorem State.load_memRead_outside {a : Nat} (h : a < layout.programStart ∨ layout.programStart + p.length ≤ a) :
    (s.load p).memRead a = s.memRead a :=
  Memory.read_writeAll_outside s.memory p h

/-- A program that fits ends below the framebuffer, so that a load leaves every pixel of the screen alone (R34). -/
theorem State.load_pixel (hfits : p.length < layout.stackStart - layout.programStart) {x y : Nat}
    (hx : x < layout.screenW) (hy : y < layout.screenH) : (s.load p).pixel x y = s.pixel x y := by
  have hfb : 0xF00 ≤ pixelAddr x y := (pixelAddr_range hx hy).1
  have hout : layout.programStart + p.length ≤ pixelAddr x y := by
    rw [layout_stackStart, layout_programStart] at hfits
    rw [layout_programStart]
    omega
  rw [State.pixel, State.pixel, State.load_memRead_outside (.inr hout)]

end

@[simp] theorem State.resetWith_pixel (seed : Seed) (x y : Nat) : (State.resetWith seed).pixel x y = false := by
  rw [State.pixel, State.resetWith_memRead]
  exact BitVec.getLsbD_zero

/-! ### Boot (R261, R263) -/

theorem boot_of_fits (seed : Seed) {p : List Byte} (h : p.length < layout.stackStart - layout.programStart) :
    boot seed p = some ((State.resetWith seed).load p) :=
  if_pos (decide_eq_true h)

theorem boot_of_not_fits (seed : Seed) {p : List Byte} (h : ¬ p.length < layout.stackStart - layout.programStart) :
    boot seed p = none :=
  if_neg fun hfits => h (of_decide_eq_true hfits)

/-- Settles O1: a program that fits starts the machine that a load makes of the reset state. The load writes the
program's bytes and `used_memory_len`, and every other item is as reset left it. -/
theorem bootLoadsProgramAndResetValues : Obligations.BootLoadsProgramAndResetValues := by
  refine ⟨rfl, rfl, fun seed p => ⟨boot_of_not_fits seed, fun hfits => ?_⟩⟩
  refine ⟨(State.resetWith seed).load p, boot_of_fits seed hfits, State.resetWith_readV seed, rfl,
    State.resetWith_sp_toNat seed, State.resetWith_pc_toNat seed, rfl, rfl, rfl, rfl, fun k hk => ?program,
    fun a hout => ?outside, fun x y hx hy => ?pixels⟩
  case program => exact State.load_memRead_program Memory.wf_nil hfits hk
  case outside => rw [State.load_memRead_outside hout, State.resetWith_memRead]
  case pixels => rw [State.load_pixel hfits hx hy, State.resetWith_pixel]

end Sys2Proof.Machine
end

section
/-! Extensionality of the canonical form of memory (log entry 10): what a canonical memory reads determines its list. -/

namespace Sys2Proof.Machine

variable {m m' : Memory} {lo k k' : Nat} {c c' : Byte}

theorem Memory.read_cons_self (k : Nat) (c : Byte) (m : Memory) : Memory.read ((k, c) :: m) k = c := if_pos rfl

theorem Memory.read_cons_ne {a : Nat} (h : a ≠ k) : Memory.read ((k, c) :: m) a = Memory.read m a := if_neg h

/-- The first listed address of a canonical memory is one that it reads as listed. -/
theorem Memory.read_head_ne_unlisted (hm : Memory.wfFrom lo ((k, c) :: m) = true) :
    Memory.read ((k, c) :: m) k ≠ Memory.unlisted := by
  obtain ⟨-, -, hc, -⟩ := Memory.wfFrom_cons.1 hm
  rwa [Memory.read_cons_self]

/-- No address before the first listed one reads as listed. -/
theorem Memory.head_le_of_read_ne_unlisted {a : Nat} (hm : Memory.wfFrom lo ((k, c) :: m) = true)
    (ha : Memory.read ((k, c) :: m) a ≠ Memory.unlisted) : k ≤ a := by
  obtain ⟨-, hk, hc, htail⟩ := Memory.wfFrom_cons.1 hm
  have hfrom : Memory.wfFrom k ((k, c) :: m) = true := Memory.wfFrom_cons.2 ⟨le_rfl, hk, hc, htail⟩
  exact not_lt.1 fun hlt => ha (Memory.read_lt hfrom hlt)

/-- The first listed address is the least one that reads as listed, so what is read determines it. -/
theorem Memory.head_le_of_read_eq (hm : Memory.wfFrom lo ((k, c) :: m) = true)
    (hm' : Memory.wfFrom lo ((k', c') :: m') = true)
    (h : ∀ a, Memory.read ((k, c) :: m) a = Memory.read ((k', c') :: m') a) : k ≤ k' :=
  Memory.head_le_of_read_ne_unlisted hm (h k' ▸ Memory.read_head_ne_unlisted hm')

theorem Memory.read_tail_eq (hm : Memory.wfFrom (k + 1) m = true) (hm' : Memory.wfFrom (k + 1) m' = true)
    (h : ∀ a, Memory.read ((k, c) :: m) a = Memory.read ((k, c') :: m') a) (a : Nat) :
    Memory.read m a = Memory.read m' a := by
  obtain rfl | ha := eq_or_ne a k
  · rw [Memory.read_lt hm a.lt_succ_self, Memory.read_lt hm' a.lt_succ_self]
  · rw [← Memory.read_cons_ne ha, h a, Memory.read_cons_ne ha]

theorem Memory.eq_of_read_eq (hm : Memory.wfFrom lo m = true) (hm' : Memory.wfFrom lo m' = true)
    (h : ∀ a, Memory.read m a = Memory.read m' a) : m = m' := by
  induction m generalizing lo m' with
  | nil =>
    cases m' with
    | nil => rfl
    | cons e' m' => exact absurd (h e'.1).symm (Memory.read_head_ne_unlisted hm')
  | cons e m ih =>
    cases m' with
    | nil => exact absurd (h e.1) (Memory.read_head_ne_unlisted hm)
    | cons e' m' =>
      obtain ⟨k, c⟩ := e
      obtain ⟨k', c'⟩ := e'
      obtain rfl : k = k' :=
        le_antisymm (Memory.head_le_of_read_eq hm hm' h) (Memory.head_le_of_read_eq hm' hm fun a => (h a).symm)
      obtain rfl : c = c' := by simpa only [Memory.read_cons_self] using h k
      obtain ⟨-, -, -, htail⟩ := Memory.wfFrom_cons.1 hm
      obtain ⟨-, -, -, htail'⟩ := Memory.wfFrom_cons.1 hm'
      rw [ih htail htail' (Memory.read_tail_eq htail htail' h)]

/-- Settles O56, by induction on the list: equal reads give equal first cells and equal reads of the tails. -/
theorem canonicalMemoriesAreEqualWhenTheyReadEqual : Obligations.CanonicalMemoriesAreEqualWhenTheyReadEqual :=
  fun _ _ => Memory.eq_of_read_eq

end Sys2Proof.Machine
end
